-- ==== Sys2Proof/Word.lean ====
section
/-! DEFINITION. The word types of the CWL-MAU (spec/00_scope.md R4, R5: XLEN = 32, CELLW = 8). -/

namespace Sys2Proof

/-- A word: the width of a general register, a control register, a matrix cell and a host word (R4, XLEN = 32). -/
abbrev Word := BitVec 32

/-- A cell of the key buffer or of a text buffer (R4, CELLW = 8). -/
abbrev Byte := BitVec 8

end Sys2Proof
end

