-- ==== Sys2Proof/Syntax.lean ====
section
/-! DEFINITION. The commands of the CWL-MAU as syntax: one constructor per row of the opcode map
(spec/30_encoding.md R63). -/

namespace Sys2Proof

/-- A general register number, a 3-bit field of the command word (R61, R62: all eight values are legal). -/
abbrev Reg := Fin 8

/-- The matrix size field `n`: "the field value is N itself"; 0 and 1 decode and fault when executed (R61, R62). -/
abbrev SizeField := Fin 4

/-- The `f` bit of MDET and MADJ, called `r` (R62). -/
inductive ResultForm where
  /-- f = 0: deliver the exact integers. -/
  | exact
  /-- f = 1: deliver the residues mod 26. -/
  | reduced
  deriving DecidableEq, Repr

/-- The `f` bit of PFPAIR, called `dir` (R62). -/
inductive Direction where
  /-- f = 0: right, down. -/
  | encrypt
  /-- f = 1: left, up. -/
  | decrypt
  deriving DecidableEq, Repr

/-- The `f` bit of TPIDX, called `inv` (R62). -/
inductive IndexMap where
  /-- f = 0: π, output position to input index. -/
  | forward
  /-- f = 1: π⁻¹, input index to output position. -/
  | inverse
  deriving DecidableEq, Repr

/-- The 13 commands, in the order of the opcode map (R63). A suffixed mnemonic (MDET.R, MADJ.R, PFPAIR.D,
TPIDX.I) is the same command with its `f` bit set. -/
inductive Instr where
  | clrf
  | mod (rd rs1 rs2 : Reg)
  | gcd (rd rs1 rs2 : Reg)
  | modinv (rd rs1 rs2 : Reg)
  | mdet (rd : Reg) (n : SizeField) (r : ResultForm)
  | madj (n : SizeField) (r : ResultForm)
  | minv (n : SizeField)
  | pfbuild
  | pfpos (rd rd2 rs1 : Reg)
  | pfpair (rd rd2 : Reg) (dir : Direction)
  | tpidx (rd rs1 : Reg) (inv : IndexMap)
  | tpose
  | tinv
  deriving DecidableEq, Repr

end Sys2Proof
end

