-- ==== Sys2Proof/WellFormed.lean ====
section
/-! DEFINITION. Which command terms some word stands for (spec/30_encoding.md R62, R66). -/

namespace Sys2Proof

/-- The one operand constraint of the unit: the two destinations of PFPOS and of PFPAIR differ (R66: "No other
command restricts its register numbers"). Every value of the `n` field is well-formed: sizes 0 and 1 decode and
fault at execution (R62). -/
def Instr.wellFormed : Instr → Bool
  | .clrf => true
  | .mod _ _ _ => true
  | .gcd _ _ _ => true
  | .modinv _ _ _ => true
  | .mdet _ _ _ => true
  | .madj _ _ => true
  | .minv _ => true
  | .pfbuild => true
  | .pfpos rd rd2 _ => rd != rd2
  | .pfpair rd rd2 _ => rd != rd2
  | .tpidx _ _ _ => true
  | .tpose => true
  | .tinv => true

end Sys2Proof
end

