-- ==== Sys2Proof/Decode.lean ====
section
/-! DEFINITION. The decoder, total on every 32-bit word and rejecting by name, and the encoder
(spec/30_encoding.md R60 to R66). -/

namespace Sys2Proof

/-- Why a word is no command. The unit reports all three as IllegalCommand (R65, R66; DESIGN CHOICE,
notes/assumptions/16.md). -/
inductive Illegal where
  /-- The opcode field names no command (R65, the 243 unassigned opcodes). -/
  | unassignedOpcode
  /-- A known opcode with a must-be-zero bit set (R64). -/
  | reservedBits
  /-- PFPOS or PFPAIR with rd = rd2 (R66). -/
  | equalDestinations
  deriving DecidableEq, Repr

/-! ### The fields of the format CMD32 (R61) -/

/-- Bits 31:24. -/
def opcodeField (w : Word) : BitVec 8 := w.extractLsb' 24 8

/-- Bits 23:21, `rd`. -/
def rdField (w : Word) : Reg := (w.extractLsb' 21 3).toFin

/-- Bits 20:18, `rs1`. -/
def rs1Field (w : Word) : Reg := (w.extractLsb' 18 3).toFin

/-- Bits 17:15, `rs2`; for PFPOS and PFPAIR the same bits are `rd2`. -/
def rs2Field (w : Word) : Reg := (w.extractLsb' 15 3).toFin

/-- Bits 14:13, `n`. -/
def nField (w : Word) : SizeField := (w.extractLsb' 13 2).toFin

/-- Bit 12, `f`. -/
def fField (w : Word) : Bool := w.getLsbD 12

/-! ### The opcode map (R63) -/

/-- The name of a row of the opcode map. -/
inductive Op where
  | clrf | mod | gcd | modinv | mdet | madj | minv | pfbuild | pfpos | pfpair | tpidx | tpose | tinv
  deriving DecidableEq, Repr

/-- A row of the opcode map: "A word `w` *is* command K exactly when `(w AND mask_K) = match_K`" (R63). -/
structure Row where
  op : Op
  pattern : Word
  mask : Word
  deriving DecidableEq, Repr

/-- The rows of R63: system and modular arithmetic, then matrix, Playfair and transposition. -/
def opcodeTable : List Row :=
  [⟨.clrf, 0x01000000#32, 0xFFFFFFFF#32⟩,
   ⟨.mod, 0x10000000#32, 0xFF007FFF#32⟩,
   ⟨.gcd, 0x11000000#32, 0xFF007FFF#32⟩,
   ⟨.modinv, 0x12000000#32, 0xFF007FFF#32⟩] ++
  [⟨.mdet, 0x20000000#32, 0xFF1F8FFF#32⟩,
   ⟨.madj, 0x21000000#32, 0xFFFF8FFF#32⟩,
   ⟨.minv, 0x22000000#32, 0xFFFF9FFF#32⟩] ++
  [⟨.pfbuild, 0x30000000#32, 0xFFFFFFFF#32⟩,
   ⟨.pfpos, 0x31000000#32, 0xFF007FFF#32⟩,
   ⟨.pfpair, 0x32000000#32, 0xFF1C6FFF#32⟩] ++
  [⟨.tpidx, 0x40000000#32, 0xFF03EFFF#32⟩,
   ⟨.tpose, 0x41000000#32, 0xFFFFFFFF#32⟩,
   ⟨.tinv, 0x42000000#32, 0xFFFFFFFF#32⟩]

/-- The match and mask test of R63. -/
def Row.accepts (r : Row) (w : Word) : Bool := w &&& r.mask == r.pattern

/-- The command a row gives for a word it accepts: its free fields, read at their positions (R62, R63). -/
def Op.operands (w : Word) : Op → Instr
  | .clrf => .clrf
  | .mod => .mod (rdField w) (rs1Field w) (rs2Field w)
  | .gcd => .gcd (rdField w) (rs1Field w) (rs2Field w)
  | .modinv => .modinv (rdField w) (rs1Field w) (rs2Field w)
  | .mdet => .mdet (rdField w) (nField w) (if fField w then .reduced else .exact)
  | .madj => .madj (nField w) (if fField w then .reduced else .exact)
  | .minv => .minv (nField w)
  | .pfbuild => .pfbuild
  | .pfpos => .pfpos (rdField w) (rs2Field w) (rs1Field w)
  | .pfpair => .pfpair (rdField w) (rs2Field w) (if fField w then .decrypt else .encrypt)
  | .tpidx => .tpidx (rdField w) (rs1Field w) (if fField w then .inverse else .forward)
  | .tpose => .tpose
  | .tinv => .tinv

/-- The decoder: the match and mask test, then the single extra test of R66. It depends on the word alone (R70). -/
def decode (w : Word) : Except Illegal Instr :=
  match opcodeTable.find? (fun r => r.accepts w) with
  | none =>
    if opcodeTable.any (fun r => opcodeField r.pattern == opcodeField w) then .error .reservedBits
    else .error .unassignedOpcode
  | some r => if (r.op.operands w).wellFormed then .ok (r.op.operands w) else .error .equalDestinations

/-! ### The encoder -/

/-- R63: "`w = opcode·2^24 + rd·2^21 + rs1·2^18 + rs2·2^15 + n·2^13 + f·2^12`, with every unused field 0". -/
def assemble (opcode rd rs1 rs2 n f : Nat) : Word :=
  BitVec.ofNat 32 (opcode * 2 ^ 24 + rd * 2 ^ 21 + rs1 * 2 ^ 18 + rs2 * 2 ^ 15 + n * 2 ^ 13 + f * 2 ^ 12)

/-- The `f` bit of a result form (R62). -/
def ResultForm.bit : ResultForm → Nat
  | .exact => 0
  | .reduced => 1

/-- The `f` bit of a direction (R62). -/
def Direction.bit : Direction → Nat
  | .encrypt => 0
  | .decrypt => 1

/-- The `f` bit of an index map (R62). -/
def IndexMap.bit : IndexMap → Nat
  | .forward => 0
  | .inverse => 1

/-- The command word of a command (R63, R68). -/
def encode : Instr → Word
  | .clrf => assemble 0x01 0 0 0 0 0
  | .mod rd rs1 rs2 => assemble 0x10 rd rs1 rs2 0 0
  | .gcd rd rs1 rs2 => assemble 0x11 rd rs1 rs2 0 0
  | .modinv rd rs1 rs2 => assemble 0x12 rd rs1 rs2 0 0
  | .mdet rd n r => assemble 0x20 rd 0 0 n r.bit
  | .madj n r => assemble 0x21 0 0 0 n r.bit
  | .minv n => assemble 0x22 0 0 0 n 0
  | .pfbuild => assemble 0x30 0 0 0 0 0
  | .pfpos rd rd2 rs1 => assemble 0x31 rd rs1 rd2 0 0
  | .pfpair rd rd2 dir => assemble 0x32 rd 0 rd2 0 dir.bit
  | .tpidx rd rs1 inv => assemble 0x40 rd rs1 0 0 inv.bit
  | .tpose => assemble 0x41 0 0 0 0 0
  | .tinv => assemble 0x42 0 0 0 0 0

/-- The decoder on a word of the opcode table: `w` is the command word as a number, bit 0 its least significant bit
(R46: no byte order exists, a command is the 32-bit value written to CMD; DESIGN CHOICE, notes/assumptions/3.md). -/
def decodeTableWord (nbits w : Nat) : Option Instr :=
  match decode (BitVec.ofNat 32 (w % 2 ^ nbits)) with
  | .ok i => some i
  | .error _ => none

end Sys2Proof
end

