-- ==== Sys2Proof/Config.lean ====
section
/-! DEFINITION. The implementation parameters of spec/00_scope.md R4. The unit leaves no value open
(R10: "Nothing in the unit's behaviour is non-deterministic"), so there is no free value here. -/

namespace Sys2Proof.Config

/-- The default of KCAP, the capacity of the key buffer (R4). -/
abbrev kcap : Nat := 64

/-- The default of TCAP, the capacity of the two text buffers (R4). -/
abbrev tcap : Nat := 256

/-- The rows of R4 marked "parameter": "A model takes the ones marked "parameter" as arguments with the default
shown". -/
structure Params where
  /-- KCAP. -/
  kcap : Nat := Config.kcap
  /-- TCAP. -/
  tcap : Nat := Config.tcap
  deriving DecidableEq, Repr

/-- MODULUS, the modulus of the matrix engine (R4, fixed). -/
abbrev modulus : Int := 26

/-- The number of cells of a matrix memory: NMAX · NMAX (R4, fixed). -/
abbrev matrixCells : Nat := 9

/-- The number of cells of the key square: SQROWS · SQCOLS (R4, fixed). -/
abbrev squareCells : Nat := 25

end Sys2Proof.Config
end

