-- ==== Sys2Proof/Machine/State.lean ====
section
/-! DEFINITION. The state of the CWL-MAU (spec/10_state.md R20), its reset value (R39), and the reasons a step or a
command can end with. -/

namespace Sys2Proof.Machine

/-- A local memory of `w`-bit cells as plain data: the pairs (cell number, content) of the cells that do not hold 0,
cell numbers strictly rising. A cell that is not listed reads as 0, its content after reset (R39; DEDUCED,
notes/assumptions/8.md). At w = 8 this is a list of `Host.Cell`. -/
abbrev Memory (w : Nat) := List (Nat × BitVec w)

/-- The three kinds of host transaction (spec/00_scope.md R10); a word index is 0 to 1023 (spec/20_memory.md R40). -/
inductive Transaction where
  | reset
  | read (widx : Fin 1024)
  | write (widx : Fin 1024) (w : Word)
  deriving DecidableEq, Repr

/-- The state. The first fourteen fields are the components of R20, one each, under the spec's own names. The last
two are the model's: they stand for the host, whose transactions are the step's input (R10), and for the read data
the port returns. -/
structure State where
  /-- The general registers x[0] to x[7]; none is hardwired (R21). -/
  x : Vector Word 8
  /-- Bit 0 is F, bit 1 is KV, bits 31:2 are reserved and read as 0 (R24). -/
  STATUS : Word
  /-- The code of the recorded fault, 0 when there is none (R25). -/
  FCODE : Word
  /-- The information word of the recorded fault (R26). -/
  FINFO : Word
  /-- The command word that raised the recorded fault (R27). -/
  FCMD : Word
  /-- The key length (R28). -/
  KLEN : Word
  /-- The text length (R29). -/
  TLEN : Word
  /-- The column count (R30). -/
  TCOLS : Word
  /-- The input matrix memory, 9 cells (R32). -/
  MA : Memory 32
  /-- The result matrix memory, 9 cells (R33). -/
  MR : Memory 32
  /-- The key square, 25 cells (R34). -/
  KSQ : Memory 5
  /-- The key buffer, KCAP = 64 cells (R35). -/
  KBUF : Memory 8
  /-- The text input buffer, TCAP = 256 cells (R36). -/
  TBUF : Memory 8
  /-- The text output buffer, TCAP = 256 cells (R37). -/
  OBUF : Memory 8
  /-- DESIGN CHOICE (notes/assumptions/1.md): the host's transactions still to come, the next one first. -/
  host : List Transaction
  /-- DESIGN CHOICE (notes/assumptions/2.md): the read data of the last step, if it was a host read. -/
  rdata : Option Word
  deriving DecidableEq, Repr

/-- The unit right after reset: "everything to zero" (spec/70_reset_and_hazards.md R165, R39). -/
def State.reset : State where
  x := Vector.replicate 8 0#32
  STATUS := 0#32
  FCODE := 0#32
  FINFO := 0#32
  FCMD := 0#32
  KLEN := 0#32
  TLEN := 0#32
  TCOLS := 0#32
  MA := []
  MR := []
  KSQ := []
  KBUF := []
  TBUF := []
  OBUF := []
  host := []
  rdata := none

/-- The reasons a step stops the machine. There are none: a fault of this unit is recorded in STATUS, FCODE, FINFO
and FCMD and the machine goes on (spec/60_exceptions.md R141); "it is not a hang and not a reset"
(spec/00_scope.md R10). -/
inductive Fault where
  deriving DecidableEq, Repr

/-- The reasons the model refuses an instruction. -/
inductive Refusal where
  /-- Raised by an arm of `exec` for an instruction without a meaning (safe); no arm raises it. -/
  | notModelled (mnemonic : String)
  deriving DecidableEq, Repr

/-- The eleven faults a command can record (spec/60_exceptions.md R140). -/
inductive Cause where
  | illegalCommand
  | badDimension
  | badModulus
  | operandRange
  | noModularInverse
  | nonInvertibleMatrix
  | resultOverflow
  | badLength
  | badColumns
  | keySquareInvalid
  | letterNotInSquare
  deriving DecidableEq, Repr

/-- What a command comes to: it commits all its writes together, or it raises exactly one fault with its
information word (spec/00_scope.md R8; spec/30_encoding.md R70). -/
inductive Verdict where
  | commit (t : State)
  | raise (c : Cause) (info : Word)
  deriving DecidableEq, Repr

end Sys2Proof.Machine
end

