-- ==== Sys2Proof/Machine/Flags.lean ====
section
/-! DEFINITION. The two live bits of STATUS, the unit's only flag-like bits (spec/10_state.md R23, R24). No command
has a carry, zero, sign or overflow flag. -/

namespace Sys2Proof.Machine

/-- STATUS.F: a fault is recorded and not yet cleared (R24, bit 0). -/
def State.F (s : State) : Bool := s.STATUS.getLsbD 0

/-- STATUS.KV: KSQ holds the square of the key now in KBUF (R24, bit 1). -/
def State.KV (s : State) : Bool := s.STATUS.getLsbD 1

/-- The `fault` output pin, "equal to STATUS.F at all times" (spec/20_memory.md R54). -/
def State.faultPin (s : State) : Bool := s.F

/-- STATUS with F set; every other bit kept (R141). -/
def statusSetF (v : Word) : Word := v ||| 0x1#32

/-- STATUS with F cleared; every other bit kept (R135). -/
def statusClearF (v : Word) : Word := v &&& 0xFFFFFFFE#32

/-- STATUS with KV set; every other bit kept (R107). -/
def statusSetKV (v : Word) : Word := v ||| 0x2#32

/-- STATUS with KV cleared; every other bit kept (R44). -/
def statusClearKV (v : Word) : Word := v &&& 0xFFFFFFFD#32

end Sys2Proof.Machine
end

