-- ==== Sys2Proof/Machine/Ops.lean ====
section
/-! DEFINITION. The named operations over registers and local memories, taking a fault and returning from it, and
the integer operations of the pseudocode (spec/00_scope.md R6 to R8; spec/60_exceptions.md R140, R141). -/

namespace Sys2Proof.Machine

/-! ### Local memories: `S[i]` and `S[i] <- v` (R8) -/

/-- The content of cell `i`: the listed value, or 0. -/
def Memory.read {w : Nat} : Memory w → Nat → BitVec w
  | [], _ => 0#w
  | (j, v) :: m, i => if i = j then v else Memory.read m i

/-- Cell `i` gets `v`, every other cell keeps its content; the list stays in canonical form. -/
def Memory.write {w : Nat} : Memory w → Nat → BitVec w → Memory w
  | [], i, v => if v = 0#w then [] else [(i, v)]
  | (j, u) :: m, i, v =>
    if i < j then (if v = 0#w then (j, u) :: m else (i, v) :: (j, u) :: m)
    else if i = j then (if v = 0#w then m else (i, v) :: m)
    else (j, u) :: Memory.write m i v

/-- Cells 0 to `n - 1` get `f 0` to `f (n - 1)`, every other cell keeps its content: the commit of a result of
`n` cells. -/
def Memory.fill {w : Nat} (m : Memory w) : Nat → (Nat → BitVec w) → Memory w
  | 0, _ => m
  | n + 1, f => Memory.fill (Memory.write m n (f n)) n f

/-- The canonical form of a memory of `cap` cells: cell numbers strictly rising and below `cap`, no cell listed with
the value an unlisted cell reads as. -/
def Memory.wf {w : Nat} (cap : Nat) (m : Memory w) : Bool :=
  decide (m.Pairwise fun a b => a.1 < b.1) && m.all fun a => decide (a.1 < cap) && (a.2 != 0#w)

/-! ### General registers: `x[i]` and `x[i] <- v` (R8, R21) -/

/-- The pattern in x[r]. -/
def State.reg (s : State) (r : Reg) : Word := s.x[r.val]

/-- x[r] <- v. -/
def State.setReg (s : State) (r : Reg) (v : Word) : State := { s with x := s.x.set r.val v }

/-! ### Integers and patterns (R6, R7) -/

/-- `fmod(n, m)`, "the unique r with 0 ≤ r < m and m dividing n − r", for m ≥ 1 (R7). -/
def fmod (n m : Int) : Int := n % m

/-- `to32(z)`, the pattern with sint(to32(z)) = z, for −2^31 ≤ z < 2^31 (R6); no rule uses it outside that range
(DEDUCED, notes/assumptions/12.md). -/
def to32 (z : Int) : Word := BitVec.ofInt 32 z

/-- Whether `z` has a 32-bit signed pattern (R6, R97). -/
def fits32 (z : Int) : Bool := decide (-2 ^ 31 ≤ z) && decide (z ≤ 2 ^ 31 - 1)

/-! ### Taking a fault and returning from one -/

/-- The code a fault leaves in FCODE (R140). -/
def Cause.code : Cause → Word
  | .illegalCommand => 1#32
  | .badDimension => 2#32
  | .badModulus => 3#32
  | .operandRange => 4#32
  | .noModularInverse => 5#32
  | .nonInvertibleMatrix => 6#32
  | .resultOverflow => 7#32
  | .badLength => 8#32
  | .badColumns => 9#32
  | .keySquareInvalid => 10#32
  | .letterNotInSquare => 11#32

/-- `raise F(info)` by the command whose word is `w`: the four writes of R141 and nothing else. -/
def State.takeFault (s : State) (c : Cause) (info w : Word) : State :=
  { s with STATUS := statusSetF s.STATUS, FCODE := c.code, FINFO := info, FCMD := w }

/-- The return from a fault: the four writes of CLRF and nothing else (spec/44_system.md R135; R145). -/
def State.endFault (s : State) : State :=
  { s with STATUS := statusClearF s.STATUS, FCODE := 0#32, FINFO := 0#32, FCMD := 0#32 }

/-- The end of the command whose word is `w`: it commits, or it takes its one fault (R8, R70). That `w` is the
word written is DEDUCED (notes/assumptions/7.md). -/
def State.conclude (s : State) (w : Word) : Verdict → Host.Outcome State Fault Refusal
  | .commit t => .next t
  | .raise c info => .next (s.takeFault c info w)

end Sys2Proof.Machine
end

