-- ==== Sys2Proof/Machine/Operands.lean ====
section
/-! DEFINITION. Every operand form of the commands: a general register read as a signed number, the matrix in MA, the
lengths in KLEN, TLEN and TCOLS, the key, the text, the key square and a letter's position in it
(spec/30_encoding.md R62; spec/20_memory.md R49). -/

namespace Sys2Proof.Machine

/-- sint(x[r]) (spec/00_scope.md R6). -/
def State.sint (s : State) (r : Reg) : Int := (s.reg r).toInt

/-! ### The matrix operand (spec/41_matrix.md R90) -/

/-- A matrix of integers, row index first, both from 0. -/
abbrev IntMatrix := Nat → Nat → Int

/-- "M[i][j] = sint(MA[N*i + j])", packed row-major with stride N (R90). -/
def State.matrix (s : State) (n : Nat) : IntMatrix := fun i j => (Memory.read s.MA (n * i + j)).toInt

/-- "MR[N·i + j] <- to32(Q[i][j]) for 0 ≤ i, j < N, and MR cells N·N to 8 keep their values" (R90). -/
def State.setResult (s : State) (n : Nat) (q : IntMatrix) : State :=
  { s with MR := Memory.fill s.MR (n * n) fun a => to32 (q (a / n) (a % n)) }

/-! ### The length registers (spec/10_state.md R28 to R30) -/

/-- uint(KLEN). -/
def State.klen (s : State) : Nat := s.KLEN.toNat

/-- L = uint(TLEN). -/
def State.tlen (s : State) : Nat := s.TLEN.toNat

/-- k = uint(TCOLS). -/
def State.tcols (s : State) : Nat := s.TCOLS.toNat

/-- The checks that TPIDX, TPOSE and TINV begin with, in this order (spec/43_transposition.md R123): what they
raise, or nothing when both pass. -/
def State.gridFault (s : State) (p : Config.Params := {}) : Option (Cause × Word) :=
  if s.tlen > p.tcap then some (.badLength, s.TLEN)
  else if s.tcols = 0 then some (.badColumns, 0#32)
  else none

/-! ### The key, and the key square (spec/42_playfair.md R107, R109) -/

/-- The key KBUF[0], ..., KBUF[L − 1] in ascending cell number (R107). -/
def State.key (s : State) : List Byte := (List.range s.klen).map (Memory.read s.KBUF)

/-- KSQ[5·r + c] as a number. -/
def State.square (s : State) (r c : Nat) : Nat := (Memory.read s.KSQ (5 * r + c)).toNat

/-- `pos(v)`: the row and column of the least cell of KSQ that holds `v`, or nothing (R109). -/
def State.pos (s : State) (v : Int) : Option (Nat × Nat) :=
  ((List.range Config.squareCells).find? fun k => ((Memory.read s.KSQ k).toNat : Int) == v).map
    fun k => (k / 5, k % 5)

end Sys2Proof.Machine
end

