-- ==== Sys2Proof/Machine/Modular.lean ====
section
/-! DEFINITION. The modular arithmetic commands MOD, GCD and MODINV (spec/40_modular.md R80 to R85). -/

namespace Sys2Proof.Machine

/-- The extended Euclidean algorithm on `r0` and `r1`, carrying of each remainder only the coefficient of the second
operand. The fuel bounds the number of divisions. -/
def euclid : Nat → Nat → Nat → Int → Int → Nat × Int
  | 0, r0, _, c0, _ => (r0, c0)
  | fuel + 1, r0, r1, c0, c1 =>
    if r1 = 0 then (r0, c0) else euclid fuel r1 (r0 % r1) c1 (c0 - ((r0 / r1 : Nat) : Int) * c1)

/-- The smallest t in [1, m) with fmod(a·t, m) = 1, or nothing, for m ≥ 1 (R82). Found "by the extended Euclidean
algorithm followed by reduction into [1, m)", as R82 allows, and kept only if it passes the test; that it is the
value of the linear search is `modInverse_eq_some_iff` and `modInverse_eq_none_iff` in Laws/Modular.lean. -/
def modInverse (a m : Int) : Option Int :=
  if fmod (a * fmod (euclid ((fmod a m).toNat + 1) m.toNat (fmod a m).toNat 0 1).2 m) m = 1 then
    some (fmod (euclid ((fmod a m).toNat + 1) m.toNat (fmod a m).toNat 0 1).2 m)
  else none

/-- MOD (R80). -/
def modVerdict (rd rs1 rs2 : Reg) (s : State) : Verdict :=
  if s.sint rs2 < 1 then .raise .badModulus (s.reg rs2)
  else .commit (s.setReg rd (to32 (fmod (s.sint rs1) (s.sint rs2))))

/-- `MOD rd, rs1, rs2` (R80). -/
def execMod (rd rs1 rs2 : Reg) (s : State) : Host.Outcome State Fault Refusal :=
  s.conclude (encode (.mod rd rs1 rs2)) (modVerdict rd rs1 rs2 s)

/-- GCD (R81). The value is "the largest integer dividing both, and 0 when a = b = 0", by which R81 lets a model
define it. -/
def gcdVerdict (rd rs1 rs2 : Reg) (s : State) : Verdict :=
  if s.sint rs1 < 0 then .raise .operandRange (s.reg rs1)
  else if s.sint rs2 < 0 then .raise .operandRange (s.reg rs2)
  else .commit (s.setReg rd (to32 (Nat.gcd (s.sint rs1).toNat (s.sint rs2).toNat)))

/-- `GCD rd, rs1, rs2` (R81). -/
def execGcd (rd rs1 rs2 : Reg) (s : State) : Host.Outcome State Fault Refusal :=
  s.conclude (encode (.gcd rd rs1 rs2)) (gcdVerdict rd rs1 rs2 s)

/-- MODINV (R82): a failed search raises NoModularInverse and writes nothing (R85). -/
def modinvVerdict (rd rs1 rs2 : Reg) (s : State) : Verdict :=
  if s.sint rs2 < 1 then .raise .badModulus (s.reg rs2)
  else match modInverse (s.sint rs1) (s.sint rs2) with
    | some t => .commit (s.setReg rd (to32 t))
    | none => .raise .noModularInverse (s.reg rs1)

/-- `MODINV rd, rs1, rs2` (R82). -/
def execModinv (rd rs1 rs2 : Reg) (s : State) : Host.Outcome State Fault Refusal :=
  s.conclude (encode (.modinv rd rs1 rs2)) (modinvVerdict rd rs1 rs2 s)

end Sys2Proof.Machine
end

