-- ==== Sys2Proof/Machine/Matrix.lean ====
section
/-! DEFINITION. The matrix commands MDET, MADJ and MINV over the ring ℤ/26ℤ (spec/41_matrix.md R90 to R99). -/

namespace Sys2Proof.Machine

/-- The sign (−1)^k. -/
def sign (k : Nat) : Int := if k % 2 = 0 then 1 else -1

/-- `minor(M, i, j)`: row i and column j deleted, the rest in order (R92). -/
def minor (M : IntMatrix) (i j : Nat) : IntMatrix :=
  fun r c => M (if r < i then r else r + 1) (if c < j then c else c + 1)

/-- The determinant of an N×N matrix: "recursive cofactor expansion along the first row, base case 2×2 = `ad-bc`"
(R91), and "the determinant of a 1×1 matrix [[v]] is v" (R92). The unit has no size 0; it gets the empty product. -/
def det : Nat → IntMatrix → Int
  | 0, _ => 1
  | 1, M => M 0 0
  | 2, M => M 0 0 * M 1 1 - M 0 1 * M 1 0
  | n + 3, M => ((List.range (n + 3)).map fun j => sign j * M 0 j * det (n + 2) (minor M 0 j)).sum

/-- The cofactor C[i][j] of an N×N matrix (R92). -/
def cofactor (n : Nat) (M : IntMatrix) (i j : Nat) : Int := sign (i + j) * det (n - 1) (minor M i j)

/-- The adjugate, "the transpose of the matrix of cofactors" (R93). -/
def adj (n : Nat) (M : IntMatrix) : IntMatrix := fun i j => cofactor n M j i

/-- The determinant reduced mod 26: the `det = mod(determinant(M), 26)` step (R94, R96). -/
def det26 (n : Nat) (M : IntMatrix) : Int := fmod (det n M) Config.modulus

/-- Whether every entry of an N×N matrix has a 32-bit signed pattern (R95). -/
def allFit32 (n : Nat) (Q : IntMatrix) : Bool :=
  (List.range n).all fun i => (List.range n).all fun j => fits32 (Q i j)

/-- The `n` field as the fault information word: "FINFO = n" (R90). -/
def sizeInfo (n : SizeField) : Word := BitVec.ofNat 32 n.val

/-- MDET (R94). -/
def mdetVerdict (rd : Reg) (n : SizeField) (r : ResultForm) (s : State) : Verdict :=
  if n.val < 2 then .raise .badDimension (sizeInfo n)
  else match r with
    | .exact =>
      if fits32 (det n.val (s.matrix n.val)) then .commit (s.setReg rd (to32 (det n.val (s.matrix n.val))))
      else .raise .resultOverflow 0#32
    | .reduced => .commit (s.setReg rd (to32 (det26 n.val (s.matrix n.val))))

/-- `MDET rd, N` and `MDET.R rd, N` (R94). -/
def execMdet (rd : Reg) (n : SizeField) (r : ResultForm) (s : State) : Host.Outcome State Fault Refusal :=
  s.conclude (encode (.mdet rd n r)) (mdetVerdict rd n r s)

/-- MADJ (R95): one entry that does not fit, and no cell of MR is written. -/
def madjVerdict (n : SizeField) (r : ResultForm) (s : State) : Verdict :=
  if n.val < 2 then .raise .badDimension (sizeInfo n)
  else match r with
    | .exact =>
      if allFit32 n.val (adj n.val (s.matrix n.val)) then .commit (s.setResult n.val (adj n.val (s.matrix n.val)))
      else .raise .resultOverflow 0#32
    | .reduced =>
      .commit (s.setResult n.val fun i j => fmod (adj n.val (s.matrix n.val) i j) Config.modulus)

/-- `MADJ N` and `MADJ.R N` (R95). -/
def execMadj (n : SizeField) (r : ResultForm) (s : State) : Host.Outcome State Fault Refusal :=
  s.conclude (encode (.madj n r)) (madjVerdict n r s)

/-- MINV (R96): the true inverse, the adjugate scaled with no further transposition (spec/90_conflicts.md C1); a
determinant without an inverse is NonInvertibleMatrix, never NoModularInverse (C5). -/
def minvVerdict (n : SizeField) (s : State) : Verdict :=
  if n.val < 2 then .raise .badDimension (sizeInfo n)
  else match modInverse (det26 n.val (s.matrix n.val)) Config.modulus with
    | some t => .commit (s.setResult n.val fun i j => fmod (t * adj n.val (s.matrix n.val) i j) Config.modulus)
    | none => .raise .nonInvertibleMatrix (to32 (det26 n.val (s.matrix n.val)))

/-- `MINV N` (R96). -/
def execMinv (n : SizeField) (s : State) : Host.Outcome State Fault Refusal :=
  s.conclude (encode (.minv n)) (minvVerdict n s)

end Sys2Proof.Machine
end

