-- ==== Sys2Proof/Machine/Playfair.lean ====
section
/-! DEFINITION. The Playfair commands PFBUILD, PFPOS and PFPAIR (spec/42_playfair.md R105 to R113). -/

namespace Sys2Proof.Machine

/-- The key-square alphabet as letter indices: 0 to 25 without 9, ascending (R105). -/
def alphabet : List Nat := (List.range 26).filter fun v => v != 9

/-- Key normalisation of one character code: "uppercase, replace J→I, strip non-letters" (R106). -/
def norm (b : Byte) : Option Nat :=
  let up := if 0x61 ≤ b.toNat ∧ b.toNat ≤ 0x7A then b.toNat - 0x20 else b.toNat
  let ij := if up = 0x4A then 0x49 else up
  if 0x41 ≤ ij ∧ ij ≤ 0x5A then some (ij - 0x41) else none

/-- Append a letter index that is not used yet; a used one is skipped (R107). -/
def place (sq : List Nat) (v : Nat) : List Nat := if v ∈ sq then sq else sq ++ [v]

/-- The key square of a key: its letters in order of first occurrence, then the unused letters of the alphabet in
order (R107). -/
def buildSquare (key : List Byte) : List Nat := alphabet.foldl place ((key.filterMap norm).foldl place [])

/-- PFBUILD (R107): all 25 cells and KV, or nothing. -/
def pfbuildVerdict (s : State) (p : Config.Params := {}) : Verdict :=
  if s.klen > p.kcap then .raise .badLength s.KLEN
  else .commit { s with
    KSQ := Memory.fill s.KSQ Config.squareCells fun k => BitVec.ofNat 5 ((buildSquare s.key).getD k 0)
    STATUS := statusSetKV s.STATUS }

/-- `PFBUILD` (R107). -/
def execPfbuild (s : State) : Host.Outcome State Fault Refusal :=
  s.conclude (encode .pfbuild) (pfbuildVerdict s)

/-- PFPOS (R110). A term with rd = rd2, which no word decodes to, is IllegalCommand
(spec/30_encoding.md R66; DEDUCED, notes/assumptions/9.md). -/
def pfposVerdict (rd rd2 rs1 : Reg) (s : State) : Verdict :=
  if rd = rd2 then .raise .illegalCommand 0#32
  else if s.KV = false then .raise .keySquareInvalid 0#32
  else match s.pos (s.sint rs1) with
    | none => .raise .letterNotInSquare (s.reg rs1)
    | some (row, col) => .commit ((s.setReg rd (to32 row)).setReg rd2 (to32 col))

/-- `PFPOS rd, rd2, rs1` (R110). -/
def execPfpos (rd rd2 rs1 : Reg) (s : State) : Host.Outcome State Fault Refusal :=
  s.conclude (encode (.pfpos rd rd2 rs1)) (pfposVerdict rd rd2 rs1 s)

/-- One coordinate shifted by +1 (encrypt) or −1 (decrypt), wrapping mod 5 (R111). -/
def shift (dir : Direction) (k : Nat) : Nat :=
  match dir with
  | .encrypt => (fmod ((k : Int) + 1) 5).toNat
  | .decrypt => (fmod ((k : Int) - 1) 5).toNat

/-- The pair substitution rule on two positions, its clauses tested in the order same row, same column, rectangle
(R111): the two cells that replace the pair, each as a row and a column. -/
def substitute (dir : Direction) (p q : Nat × Nat) : (Nat × Nat) × (Nat × Nat) :=
  if p.1 = q.1 then ((p.1, shift dir p.2), (q.1, shift dir q.2))
  else if p.2 = q.2 then ((shift dir p.1, p.2), (shift dir q.1, q.2))
  else ((p.1, q.2), (q.1, p.2))

/-- PFPAIR (R111). A term with rd = rd2, which no word decodes to, is IllegalCommand
(spec/30_encoding.md R66; DEDUCED, notes/assumptions/9.md). -/
def pfpairVerdict (rd rd2 : Reg) (dir : Direction) (s : State) : Verdict :=
  if rd = rd2 then .raise .illegalCommand 0#32
  else if s.KV = false then .raise .keySquareInvalid 0#32
  else match s.pos (s.sint rd), s.pos (s.sint rd2) with
    | none, _ => .raise .letterNotInSquare (s.reg rd)
    | some _, none => .raise .letterNotInSquare (s.reg rd2)
    | some p, some q =>
      let cells := substitute dir p q
      .commit ((s.setReg rd (BitVec.ofNat 32 (s.square cells.1.1 cells.1.2))).setReg rd2
        (BitVec.ofNat 32 (s.square cells.2.1 cells.2.2)))

/-- `PFPAIR.E rd, rd2` and `PFPAIR.D rd, rd2` (R111). -/
def execPfpair (rd rd2 : Reg) (dir : Direction) (s : State) : Host.Outcome State Fault Refusal :=
  s.conclude (encode (.pfpair rd rd2 dir)) (pfpairVerdict rd rd2 dir s)

end Sys2Proof.Machine
end

