-- ==== Sys2Proof/Machine/System.lean ====
section
/-! DEFINITION. The system command CLRF (spec/44_system.md R135). -/

namespace Sys2Proof.Machine

/-- `CLRF`: "STATUS.F <- 0, FCODE <- 0, FINFO <- 0, FCMD <- 0"; it never faults (R135). -/
def execClrf (s : State) : Host.Outcome State Fault Refusal :=
  s.conclude (encode .clrf) (.commit s.endFault)

end Sys2Proof.Machine
end

