-- ==== Sys2Proof/Machine/Transposition.lean ====
section
/-! DEFINITION. The transposition commands TPIDX, TPOSE and TINV (spec/43_transposition.md R120 to R128). Throughout,
`L` is the text length and `k` the column count. -/

namespace Sys2Proof.Machine

/-- The number of rows of the grid, ceil(L/k) (R120). -/
def numRows (L k : Nat) : Nat := (L + k - 1) / k

/-- The run length of column j: "`numRows` if `j < (text.length mod numColumns)` or if
`text.length mod numColumns == 0`, else `numRows − 1`" (R120). -/
def runLen (L k j : Nat) : Nat := if j < L % k ∨ L % k = 0 then numRows L k else numRows L k - 1

/-- The column and the row of the `o`-th cell visited from column `c` on: the columns are passed one by one, the
fuel bounding their number (R121). -/
def locate (L k : Nat) : Nat → Nat → Nat → Nat × Nat
  | 0, c, o => (c, o)
  | fuel + 1, c, o => if o < runLen L k c then (c, o) else locate L k fuel (c + 1) (o - runLen L k c)

/-- π(o), the text index of the `o`-th cell visited column-major: "r*k + c" (R121). The columns from L on hold no
cell, so L columns suffice. -/
def transposeIndex (L k o : Nat) : Nat := (locate L k L 0 o).2 * k + (locate L k L 0 o).1

/-- The first output position of column c, in the closed form of R122. -/
def startOf (L k c : Nat) : Nat :=
  if L % k = 0 then c * numRows L k
  else min c (L % k) * numRows L k + (c - L % k) * (numRows L k - 1)

/-- π⁻¹(i), in the closed form of R122. -/
def inverseIndex (L k i : Nat) : Nat := startOf L k (i % k) + i / k

/-- The index mapping that the `inv` bit of TPIDX selects (R62, R124). -/
def IndexMap.apply (m : IndexMap) (L k v : Nat) : Nat :=
  match m with
  | .forward => transposeIndex L k v
  | .inverse => inverseIndex L k v

/-- TPIDX (R124). -/
def tpidxVerdict (rd rs1 : Reg) (inv : IndexMap) (s : State) (p : Config.Params := {}) : Verdict :=
  match s.gridFault p with
  | some (c, info) => .raise c info
  | none =>
    if s.sint rs1 < 0 ∨ s.sint rs1 ≥ s.tlen then .raise .operandRange (s.reg rs1)
    else .commit (s.setReg rd (to32 (IndexMap.apply inv s.tlen s.tcols (s.sint rs1).toNat)))

/-- `TPIDX rd, rs1` and `TPIDX.I rd, rs1` (R124). -/
def execTpidx (rd rs1 : Reg) (inv : IndexMap) (s : State) : Host.Outcome State Fault Refusal :=
  s.conclude (encode (.tpidx rd rs1 inv)) (tpidxVerdict rd rs1 inv s)

/-- TPOSE, the read mapping: "for all o in 0..L-1: OBUF[o] <- TBUF[pi(o)]" (R125). -/
def tposeVerdict (s : State) (p : Config.Params := {}) : Verdict :=
  match s.gridFault p with
  | some (c, info) => .raise c info
  | none => .commit { s with
      OBUF := Memory.fill s.OBUF s.tlen fun o => Memory.read s.TBUF (transposeIndex s.tlen s.tcols o) }

/-- `TPOSE` (R125). -/
def execTpose (s : State) : Host.Outcome State Fault Refusal :=
  s.conclude (encode .tpose) (tposeVerdict s)

/-- TINV, the write mapping "OBUF[pi(o)] <- TBUF[o]", written as R126 allows: "equivalently
OBUF[i] <- TBUF[pi_inv(i)] for all i". -/
def tinvVerdict (s : State) (p : Config.Params := {}) : Verdict :=
  match s.gridFault p with
  | some (c, info) => .raise c info
  | none => .commit { s with
      OBUF := Memory.fill s.OBUF s.tlen fun i => Memory.read s.TBUF (inverseIndex s.tlen s.tcols i) }

/-- `TINV` (R126). -/
def execTinv (s : State) : Host.Outcome State Fault Refusal :=
  s.conclude (encode .tinv) (tinvVerdict s)

end Sys2Proof.Machine
end

