-- ==== Sys2Proof/Machine/Dispatch.lean ====
section
/-! DEFINITION. One arm per command: the third case of spec/30_encoding.md R70, "execute the matched command by its
rule". -/

namespace Sys2Proof.Machine

def exec (i : Instr) (s : State) : Host.Outcome State Fault Refusal :=
  match i with
  | .clrf => Sys2Proof.Machine.execClrf s
  | .mod rd rs1 rs2 => Sys2Proof.Machine.execMod rd rs1 rs2 s
  | .gcd rd rs1 rs2 => Sys2Proof.Machine.execGcd rd rs1 rs2 s
  | .modinv rd rs1 rs2 => Sys2Proof.Machine.execModinv rd rs1 rs2 s
  | .mdet rd n r => Sys2Proof.Machine.execMdet rd n r s
  | .madj n r => Sys2Proof.Machine.execMadj n r s
  | .minv n => Sys2Proof.Machine.execMinv n s
  | .pfbuild => Sys2Proof.Machine.execPfbuild s
  | .pfpos rd rd2 rs1 => Sys2Proof.Machine.execPfpos rd rd2 rs1 s
  | .pfpair rd rd2 dir => Sys2Proof.Machine.execPfpair rd rd2 dir s
  | .tpidx rd rs1 inv => Sys2Proof.Machine.execTpidx rd rs1 inv s
  | .tpose => Sys2Proof.Machine.execTpose s
  | .tinv => Sys2Proof.Machine.execTinv s

end Sys2Proof.Machine
end

