-- ==== Sys2Proof/Machine/Window.lean ====
section
/-! DEFINITION. The host window: its map, host reads, and host writes of data (spec/20_memory.md R40 to R47). -/

namespace Sys2Proof.Machine

/-- What a word of the window is: a row of the map of R41. How many cells KBUF, TBUF and OBUF have is a parameter of
the unit (spec/00_scope.md R4), so their cell numbers have no bound here; the map sets it. -/
inductive WindowWord where
  | cmd
  | status
  | fcode
  | finfo
  | fcmd
  | klen
  | tlen
  | tcols
  | x (i : Reg)
  | ma (i : Fin 9)
  | mr (i : Fin 9)
  | ksq (i : Fin 25)
  | kbuf (i : Nat)
  | tbuf (i : Nat)
  | obuf (i : Nat)
  | reserved
  deriving DecidableEq, Repr

/-- The control words, word indices 0 to 7 (R41). -/
def controlWord (i : Fin 1024) : WindowWord :=
  match i.val with
  | 0 => .cmd
  | 1 => .status
  | 2 => .fcode
  | 3 => .finfo
  | 4 => .fcmd
  | 5 => .klen
  | 6 => .tlen
  | 7 => .tcols
  | _ => .reserved

/-- A map of the window: what each word index stands for. "The map is laid out for KCAP = 64 and TCAP = 256; a model
that changes those parameters must lay out its own map" (R41), so a map is an argument of the host's accesses, with
the map of R41 as its default. -/
abbrev WindowMap := Fin 1024 → WindowWord

/-- The map of the window (R41). -/
def windowWord (i : Fin 1024) : WindowWord :=
  if i.val < 8 then controlWord i
  else if h : 16 ≤ i.val ∧ i.val < 24 then .x ⟨i.val - 16, by omega⟩
  else if h : 32 ≤ i.val ∧ i.val < 41 then .ma ⟨i.val - 32, by omega⟩
  else if h : 48 ≤ i.val ∧ i.val < 57 then .mr ⟨i.val - 48, by omega⟩
  else if h : 64 ≤ i.val ∧ i.val < 89 then .ksq ⟨i.val - 64, by omega⟩
  else if 128 ≤ i.val ∧ i.val < 192 then .kbuf (i.val - 128)
  else if 256 ≤ i.val ∧ i.val < 512 then .tbuf (i.val - 256)
  else if 512 ≤ i.val ∧ i.val < 768 then .obuf (i.val - 512)
  else .reserved

/-- The word `HostRead` returns: the register, the cell zero-extended, or 0 for CMD and every reserved word (R42). -/
def hostRead (i : Fin 1024) (s : State) (map : WindowMap := windowWord) : Word :=
  match map i with
  | .cmd => 0#32
  | .status => s.STATUS
  | .fcode => s.FCODE
  | .finfo => s.FINFO
  | .fcmd => s.FCMD
  | .klen => s.KLEN
  | .tlen => s.TLEN
  | .tcols => s.TCOLS
  | .x r => s.reg r
  | .ma c => Memory.read s.MA c.val
  | .mr c => Memory.read s.MR c.val
  | .ksq c => (Memory.read s.KSQ c.val).setWidth 32
  | .kbuf c => (Memory.read s.KBUF c).setWidth 32
  | .tbuf c => (Memory.read s.TBUF c).setWidth 32
  | .obuf c => (Memory.read s.OBUF c).setWidth 32
  | .reserved => 0#32

/-- `HostWrite` to a word other than CMD: the cell or register stores the word, KLEN and KBUF also clear STATUS.KV
(R44), and a read-only or reserved word ignores it (R43, R45). It does not look at STATUS.F. A write to CMD is a
command (`presentCommand`), and stores nothing. -/
def hostStore (i : Fin 1024) (w : Word) (s : State) (map : WindowMap := windowWord) : State :=
  match map i with
  | .klen => { s with KLEN := w, STATUS := statusClearKV s.STATUS }
  | .tlen => { s with TLEN := w }
  | .tcols => { s with TCOLS := w }
  | .x r => s.setReg r w
  | .ma c => { s with MA := Memory.write s.MA c.val w }
  | .kbuf c => { s with KBUF := Memory.write s.KBUF c (w.setWidth 8), STATUS := statusClearKV s.STATUS }
  | .tbuf c => { s with TBUF := Memory.write s.TBUF c (w.setWidth 8) }
  | .cmd => s
  | .status => s
  | .fcode => s
  | .finfo => s
  | .fcmd => s
  | .mr _ => s
  | .ksq _ => s
  | .obuf _ => s
  | .reserved => s

end Sys2Proof.Machine
end

