-- ==== Sys2Proof/Machine/Transact.lean ====
section
/-! DEFINITION. What a write to CMD does, and what each host transaction does (spec/30_encoding.md R70;
spec/00_scope.md R10; spec/70_reset_and_hazards.md R165). -/

namespace Sys2Proof.Machine

/-- `HostWrite(CMD, w)` (R70), `run` executing a command: while a fault is recorded only the word of CLRF is executed
and any other is discarded with no state change at all (spec/60_exceptions.md R143); an illegal word raises
IllegalCommand(0); any other word is executed. -/
def presentTo (run : Instr → State → Host.Outcome State Fault Refusal) (w : Word) (s : State) :
    Host.Outcome State Fault Refusal :=
  if s.F = true ∧ w ≠ 0x01000000#32 then .next s
  else match decode w with
    | .error _ => s.conclude w (.raise .illegalCommand 0#32)
    | .ok i => run i s

/-- `HostWrite(CMD, w)` of the unit with the default parameters (DESIGN CHOICE, notes/assumptions/5.md). -/
def presentCommand (w : Word) (s : State) : Host.Outcome State Fault Refusal := presentTo exec w s

/-- One host transaction, complete with all its effects (spec/20_memory.md R50), through the window `map`. Reset sets
every component of R20; what the host does next is not the unit's (R10, R20; DEDUCED, notes/assumptions/6.md). -/
def transactThrough (map : WindowMap) (run : Instr → State → Host.Outcome State Fault Refusal) (t : Transaction)
    (s : State) : Host.Outcome State Fault Refusal :=
  match t with
  | .reset => .next { State.reset with host := s.host }
  | .read i => .next { s with rdata := some (hostRead i s map) }
  | .write i w => if map i = .cmd then presentTo run w s else .next (hostStore i w s map)

/-- One host transaction on the unit with the default parameters (DESIGN CHOICE, notes/assumptions/5.md). -/
def transact (t : Transaction) (s : State) : Host.Outcome State Fault Refusal := transactThrough windowWord exec t s

/-- Nothing happens between transactions but that no read data is returned (spec/60_exceptions.md R152: "The unit is
idle between host transactions and its state persists"; DEDUCED, notes/assumptions/4.md). -/
def idle (s : State) : State := { s with rdata := none }

/-- The host's next transaction is taken off its list and performed; with none pending the unit idles. -/
def takeNext (perform : Transaction → State → Host.Outcome State Fault Refusal) (s : State) :
    Host.Outcome State Fault Refusal :=
  match s.host with
  | [] => .next (idle s)
  | t :: ts => perform t (idle { s with host := ts })

/-- The state with a command word as the host's next transaction, a write to CMD (spec/10_state.md R31); `w` is cut
to the `nbits` bits the opcode table gives it. -/
def State.withCommand (s : State) (nbits w : Nat) : State :=
  { s with host := .write 0 (BitVec.ofNat 32 (w % 2 ^ nbits)) :: s.host }

end Sys2Proof.Machine
end

