-- ==== Sys2Proof/Machine/Step.lean ====
section
/-! DEFINITION. One step of the machine: the host's next transaction (spec/00_scope.md R10). -/

namespace Sys2Proof.Machine

/-- The step of the unit with the default parameters (DESIGN CHOICE, notes/assumptions/5.md): the host's next
transaction, or an idle step. -/
def step (s : State) : Host.Outcome State Fault Refusal := takeNext transact s

/-- `s` with a command word placed where `step` takes its next command from: the head of the host's list
(DESIGN CHOICE, notes/assumptions/3.md). -/
def State.withFetchWord (s : State) (nbits w : Nat) : State := s.withCommand nbits w

end Sys2Proof.Machine
end

