-- ==== Sys2Proof/Machine/Build.lean ====
section
/-! DEFINITION. The unit at any parameters (spec/00_scope.md R4): what a command comes to, and a unit as built, with its
capacities and the window laid out for them (spec/20_memory.md R41). -/

namespace Sys2Proof.Machine

/-- What a command comes to, for every command. The capacities bound KLEN and TLEN, and nothing else depends on them
(R4). -/
def verdict (i : Instr) (s : State) (p : Config.Params := {}) : Verdict :=
  match i with
  | .clrf => .commit s.endFault
  | .mod rd rs1 rs2 => modVerdict rd rs1 rs2 s
  | .gcd rd rs1 rs2 => gcdVerdict rd rs1 rs2 s
  | .modinv rd rs1 rs2 => modinvVerdict rd rs1 rs2 s
  | .mdet rd n r => mdetVerdict rd n r s
  | .madj n r => madjVerdict n r s
  | .minv n => minvVerdict n s
  | .pfbuild => pfbuildVerdict s p
  | .pfpos rd rd2 rs1 => pfposVerdict rd rd2 rs1 s
  | .pfpair rd rd2 dir => pfpairVerdict rd rd2 dir s
  | .tpidx rd rs1 inv => tpidxVerdict rd rs1 inv s p
  | .tpose => tposeVerdict s p
  | .tinv => tinvVerdict s p

/-- A command of the unit with the parameters `p`. At the defaults it is `exec`. -/
def execAt (p : Config.Params) (i : Instr) (s : State) : Host.Outcome State Fault Refusal :=
  s.conclude (encode i) (verdict i s p)

/-- A unit as built: the parameters of R4, and the map of its window, by default those of this spec. R41 leaves the
map of other parameters to the model that takes them, so it is an argument (DESIGN CHOICE, notes/assumptions/5.md). -/
structure Build where
  params : Config.Params := {}
  map : WindowMap := windowWord

/-- The map shows only cells that the unit has. -/
def Build.laidOut (b : Build) : Prop :=
  ∀ i c, (b.map i = .kbuf c → c < b.params.kcap) ∧ (b.map i = .tbuf c → c < b.params.tcap) ∧
    (b.map i = .obuf c → c < b.params.tcap)

/-- One host transaction on the unit `b`. -/
def Build.transact (b : Build) (t : Transaction) (s : State) : Host.Outcome State Fault Refusal :=
  transactThrough b.map (execAt b.params) t s

/-- The step of the unit `b`. With the defaults it is the step of the machine. -/
def Build.step (b : Build) (s : State) : Host.Outcome State Fault Refusal := takeNext b.transact s

end Sys2Proof.Machine
end

