-- ==== Sys2Proof/Safety.lean ====
section
/-! DEFINITION. The terms in which claims speak of the machine: the state a fault leaves, the invariant of the
machine, and the spec's own notions written apart from the model's functions (the Euclidean loop, the operand matrix
as a Mathlib matrix, the position of a letter, the destinations of a command). -/

namespace Sys2Proof.Machine

/-- The state after a fault by the command word `w`: the four writes of spec/60_exceptions.md R141, in numbers. -/
def State.recorded (s : State) (code : Nat) (info w : Word) : State :=
  { s with STATUS := s.STATUS ||| 0x1#32, FCODE := BitVec.ofNat 32 code, FINFO := info, FCMD := w }

/-- The loop of spec/40_modular.md R81: "while b != 0: (a, b) <- (b, fmod(a, b))" started on `a`, `b` ends with `g`
in `a`. -/
inductive EuclidLoop : Int → Int → Int → Prop where
  | done (a : Int) : EuclidLoop a 0 a
  | turn (a b g : Int) : b ≠ 0 → EuclidLoop b (a % b) g → EuclidLoop a b g

/-- The operand matrix of size `n` in MA: "M[i][j] = sint(MA[N*i + j])" (spec/41_matrix.md R90). -/
def State.operand (s : State) (n : Nat) : Matrix (Fin n) (Fin n) Int :=
  Matrix.of fun i j => (Memory.read s.MA (n * i.val + j.val)).toInt

/-- The matrix of size `n` in MR: a result Q has Q[i][j] in MR[N·i + j] (R90). -/
def State.result (s : State) (n : Nat) : Matrix (Fin n) (Fin n) Int :=
  Matrix.of fun i j => (Memory.read s.MR (n * i.val + j.val)).toInt

/-- The 25 cells of KSQ in order. -/
def State.squareList (s : State) : List Nat :=
  (List.range 25).map fun k => (Memory.read s.KSQ k).toNat

/-- The letters of the key in order: normalised, non-letters stripped (spec/42_playfair.md R106, R107). -/
def State.letters (s : State) : List Nat :=
  (List.range s.KLEN.toNat).filterMap fun i => norm (Memory.read s.KBUF i)

/-- pos(v) = (r, c): row r, column c is the least cell of KSQ that holds `v` (R109). -/
def State.HoldsAt (s : State) (v : Int) (r c : Nat) : Prop :=
  r < 5 ∧ c < 5 ∧ ((Memory.read s.KSQ (5 * r + c)).toNat : Int) = v ∧
    ∀ k < 5 * r + c, ((Memory.read s.KSQ k).toNat : Int) ≠ v

/-- No cell of KSQ holds `v` (R109). -/
def State.Absent (s : State) (v : Int) : Prop :=
  ∀ k < 25, ((Memory.read s.KSQ k).toNat : Int) ≠ v

/-- The letter in row r, column c of the square. -/
def State.letterAt (s : State) (r c : Nat) : Word := (Memory.read s.KSQ (5 * r + c)).setWidth 32

/-- x[rd] <- u and x[rd2] <- v together (R111). -/
def State.setPair (s : State) (rd rd2 : Reg) (u v : Word) : State := { s with x := (s.x.set rd.val u).set rd2.val v }

/-- The codes a command can record (spec/60_exceptions.md R140, columns "code" and "raised by"; R144). -/
def possibleFaults : Instr → List Nat
  | .clrf => []
  | .mod _ _ _ => [3]
  | .gcd _ _ _ => [4]
  | .modinv _ _ _ => [3, 5]
  | .mdet _ _ .exact => [2, 7]
  | .mdet _ _ .reduced => [2]
  | .madj _ .exact => [2, 7]
  | .madj _ .reduced => [2]
  | .minv _ => [2, 6]
  | .pfbuild => [8]
  | .pfpos _ _ _ => [10, 11]
  | .pfpair _ _ _ => [10, 11]
  | .tpidx _ _ _ => [8, 9, 4]
  | .tpose => [8, 9]
  | .tinv => [8, 9]

/-- The destination registers of a command (spec/10_state.md R21, column "writes"). -/
def destinations : Instr → List Reg
  | .clrf => []
  | .mod rd _ _ => [rd]
  | .gcd rd _ _ => [rd]
  | .modinv rd _ _ => [rd]
  | .mdet rd _ _ => [rd]
  | .madj _ _ => []
  | .minv _ => []
  | .pfbuild => []
  | .pfpos rd rd2 _ => [rd, rd2]
  | .pfpair rd rd2 _ => [rd, rd2]
  | .tpidx rd _ _ => [rd]
  | .tpose => []
  | .tinv => []

/-- Performing the transactions `ts` one after the other, each taken off the host's list and complete before the next
(spec/20_memory.md R50), leads from one state to another. -/
inductive Performs : List Transaction → State → State → Prop where
  | done (s : State) : Performs [] s s
  | next (tr : Transaction) (ts us : List Transaction) (s t u : State) : s.host = tr :: us →
      transact tr { s with host := us, rdata := none } = .next t → Performs ts t u → Performs (tr :: ts) s u

/-- The invariant of the unit with the parameters `p`. It holds after reset and every step keeps it. -/
structure State.Inv (s : State) (p : Config.Params := {}) : Prop where
  /-- The local memories are in canonical form and no cell outside them is listed (spec/20_memory.md R49). -/
  ma : Memory.wf Config.matrixCells s.MA = true
  mr : Memory.wf Config.matrixCells s.MR = true
  ksq : Memory.wf Config.squareCells s.KSQ = true
  kbuf : Memory.wf p.kcap s.KBUF = true
  tbuf : Memory.wf p.tcap s.TBUF = true
  obuf : Memory.wf p.tcap s.OBUF = true
  /-- STATUS bits 31:2 are "reserved, read as 0" (spec/10_state.md R24). -/
  reserved : ∀ b, 2 ≤ b → s.STATUS.getLsbD b = false
  /-- "FCODE = 0 exactly when STATUS.F = 0" (R25). -/
  code : s.FCODE = 0#32 ↔ s.F = false
  /-- "Codes 12 and above are never produced" (spec/60_exceptions.md R140). -/
  codeRange : s.FCODE.toNat ≤ 11
  /-- FINFO and FCMD are written only by `raise`, and by CLRF and reset to 0 (spec/10_state.md R26, R27). -/
  quiet : s.F = false → s.FINFO = 0#32 ∧ s.FCMD = 0#32
  /-- An illegal word is what code 1 records, and any other code records a command (R140). -/
  faulting : s.F = true → (s.FCODE = 1#32 ↔ ∀ i, decode s.FCMD ≠ .ok i)
  /-- "KV: 1 = KSQ holds the key square built by the most recent PFBUILD from the key now in KBUF[0..KLEN−1]" (R24;
  spec/20_memory.md R53). -/
  square : s.KV = true → s.klen ≤ p.kcap ∧ s.squareList = buildSquare s.key

end Sys2Proof.Machine
end

