-- ==== Sys2Proof/Certificates/Slice0/Obligations.lean ====
section
/-! DEFINITION. What is claimed of the CWL-MAU model: one definition per statement, none proved here. A word written
`assemble opcode rd rs1 rs2 n f` is the command word of spec/30_encoding.md R63. `State.recorded` is the state a
fault leaves (spec/60_exceptions.md R141). -/

open Sys2Proof Sys2Proof.Machine

/-! ### Modular arithmetic commands (spec/40_modular.md) -/

/-- R80. MOD delivers the unique r with 0 ≤ r < m and m dividing n − r, changing nothing but x[rd], whichever
registers coincide; for m < 1 it records BadModulus with the pattern of x[rs2]. -/
def Obligations.ModDeliversNonNegativeResidue : Prop :=
  ∀ (rd rs1 rs2 : Reg) (s : State),
    decode (assemble 0x10 rd rs1 rs2 0 0) = .ok (.mod rd rs1 rs2) ∧
    (1 ≤ s.sint rs2 → ∃ r : Int, 0 ≤ r ∧ r < s.sint rs2 ∧ s.sint rs2 ∣ s.sint rs1 - r ∧
      (BitVec.ofInt 32 r).toInt = r ∧
      exec (.mod rd rs1 rs2) s = .next { s with x := s.x.set rd.val (BitVec.ofInt 32 r) }) ∧
    (s.sint rs2 < 1 →
      exec (.mod rd rs1 rs2) s = .next (s.recorded 3 (s.reg rs2) (assemble 0x10 rd rs1 rs2 0 0)))

/-- R81. GCD delivers the value the Euclidean loop ends with, which is the greatest common divisor (every common
divisor divides it, so it is 0 for 0 and 0); a negative operand is recorded as OperandRange, x[rs1] tested first. -/
def Obligations.GcdDeliversGreatestCommonDivisor : Prop :=
  ∀ (rd rs1 rs2 : Reg) (s : State),
    decode (assemble 0x11 rd rs1 rs2 0 0) = .ok (.gcd rd rs1 rs2) ∧
    (0 ≤ s.sint rs1 → 0 ≤ s.sint rs2 → ∃ g : Int, EuclidLoop (s.sint rs1) (s.sint rs2) g ∧
      0 ≤ g ∧ g ∣ s.sint rs1 ∧ g ∣ s.sint rs2 ∧ (∀ d : Int, d ∣ s.sint rs1 → d ∣ s.sint rs2 → d ∣ g) ∧
      (BitVec.ofInt 32 g).toInt = g ∧
      exec (.gcd rd rs1 rs2) s = .next { s with x := s.x.set rd.val (BitVec.ofInt 32 g) }) ∧
    (s.sint rs1 < 0 →
      exec (.gcd rd rs1 rs2) s = .next (s.recorded 4 (s.reg rs1) (assemble 0x11 rd rs1 rs2 0 0))) ∧
    (0 ≤ s.sint rs1 → s.sint rs2 < 0 →
      exec (.gcd rd rs1 rs2) s = .next (s.recorded 4 (s.reg rs2) (assemble 0x11 rd rs1 rs2 0 0)))

/-- R82. MODINV delivers the smallest t in [1, m) with a·t mod m = 1, and nothing else changes; with no such t it
records NoModularInverse and writes no register; m < 1 is BadModulus. -/
def Obligations.ModinvDeliversSmallestInverse : Prop :=
  ∀ (rd rs1 rs2 : Reg) (s : State),
    decode (assemble 0x12 rd rs1 rs2 0 0) = .ok (.modinv rd rs1 rs2) ∧
    (1 ≤ s.sint rs2 → ∀ t : Int, 1 ≤ t → t < s.sint rs2 → s.sint rs1 * t % s.sint rs2 = 1 →
      (∀ u : Int, 1 ≤ u → u < t → s.sint rs1 * u % s.sint rs2 ≠ 1) →
      (BitVec.ofInt 32 t).toInt = t ∧
      exec (.modinv rd rs1 rs2) s = .next { s with x := s.x.set rd.val (BitVec.ofInt 32 t) }) ∧
    (1 ≤ s.sint rs2 → (∀ t : Int, 1 ≤ t → t < s.sint rs2 → s.sint rs1 * t % s.sint rs2 ≠ 1) →
      exec (.modinv rd rs1 rs2) s = .next (s.recorded 5 (s.reg rs1) (assemble 0x12 rd rs1 rs2 0 0))) ∧
    (s.sint rs2 < 1 →
      exec (.modinv rd rs1 rs2) s = .next (s.recorded 3 (s.reg rs2) (assemble 0x12 rd rs1 rs2 0 0)))

/-- R84. For m ≥ 2, MODINV delivers a value exactly when gcd(fmod(a, m), m) = 1 and records NoModularInverse
otherwise; for m = 1 it always records NoModularInverse; for m = 26 the units and inverses are the table's. -/
def Obligations.InverseExistsExactlyWhenCoprime : Prop :=
  ∀ (rd rs1 rs2 : Reg) (s : State),
    (2 ≤ s.sint rs2 → Int.gcd (s.sint rs1 % s.sint rs2) (s.sint rs2) = 1 →
      ∃ t : Int, 1 ≤ t ∧ t < s.sint rs2 ∧ s.sint rs1 * t % s.sint rs2 = 1 ∧ (BitVec.ofInt 32 t).toInt = t ∧
        exec (.modinv rd rs1 rs2) s = .next { s with x := s.x.set rd.val (BitVec.ofInt 32 t) }) ∧
    (2 ≤ s.sint rs2 → Int.gcd (s.sint rs1 % s.sint rs2) (s.sint rs2) ≠ 1 →
      exec (.modinv rd rs1 rs2) s = .next (s.recorded 5 (s.reg rs1) (assemble 0x12 rd rs1 rs2 0 0))) ∧
    (s.sint rs2 = 1 →
      exec (.modinv rd rs1 rs2) s = .next (s.recorded 5 (s.reg rs1) (assemble 0x12 rd rs1 rs2 0 0))) ∧
    (s.sint rs2 = 26 →
      (∀ p ∈ ([(1, 1), (3, 9), (5, 21), (7, 15), (9, 3), (11, 19), (15, 7), (17, 23), (19, 11), (21, 5), (23, 17),
          (25, 25)] : List (Int × Int)), s.sint rs1 = p.1 →
        exec (.modinv rd rs1 rs2) s = .next { s with x := s.x.set rd.val (BitVec.ofInt 32 p.2) }) ∧
      (∀ a ∈ ([0, 2, 4, 6, 8, 10, 12, 13, 14, 16, 18, 20, 22, 24] : List Int), s.sint rs1 = a →
        exec (.modinv rd rs1 rs2) s = .next (s.recorded 5 (s.reg rs1) (assemble 0x12 rd rs1 rs2 0 0))))

/-- R85. A failed search delivers no value: MODINV and MINV record their fault and leave every register and every
cell of MR as it was; in particular MODINV of (13, 26) does not leave 1 in x[rd]. -/
def Obligations.FailedSearchDeliversNothing : Prop :=
  ∀ (rd rs1 rs2 : Reg) (n : SizeField) (s : State),
    (1 ≤ s.sint rs2 → (∀ t : Int, 1 ≤ t → t < s.sint rs2 → s.sint rs1 * t % s.sint rs2 ≠ 1) →
      ∃ t, exec (.modinv rd rs1 rs2) s = .next t ∧ t.FCODE = 5#32 ∧ t.x = s.x ∧ t.MR = s.MR) ∧
    (2 ≤ n.val → (∀ t : Int, 1 ≤ t → t < 26 → (s.operand n.val).det * t % 26 ≠ 1) →
      ∃ t, exec (.minv n) s = .next t ∧ t.FCODE = 6#32 ∧ t.x = s.x ∧ t.MR = s.MR) ∧
    (s.sint rs1 = 13 → s.sint rs2 = 26 → s.reg rd ≠ 1#32 →
      ∃ t, exec (.modinv rd rs1 rs2) s = .next t ∧ t.FCODE = 5#32 ∧ t.reg rd ≠ 1#32)

/-! ### Matrix commands (spec/41_matrix.md) -/

/-- R91 to R93. The engine's determinant and adjugate are the closed forms of the rules, and for sizes 2 and 3 they
are the determinant and the adjugate of linear algebra. -/
def Obligations.EngineComputesDeterminantAndAdjugate : Prop :=
  ∀ M : IntMatrix,
    det 2 M = M 0 0 * M 1 1 - M 0 1 * M 1 0 ∧
    det 3 M = M 0 0 * (M 1 1 * M 2 2 - M 1 2 * M 2 1) - M 0 1 * (M 1 0 * M 2 2 - M 1 2 * M 2 0)
      + M 0 2 * (M 1 0 * M 2 1 - M 1 1 * M 2 0) ∧
    (∀ n, n = 2 ∨ n = 3 →
      det n M = (Matrix.of fun i j : Fin n => M i j).det ∧
      ∀ i j : Fin n, adj n M i j = (Matrix.of fun i j : Fin n => M i j).adjugate i j)

/-- R93, the defining property: M·adj(M) = adj(M)·M = det(M)·I over the integers, for both sizes. -/
def Obligations.AdjugateTimesMatrixIsDeterminant : Prop :=
  ∀ (n : Nat) (M : IntMatrix), n = 2 ∨ n = 3 → ∀ i < n, ∀ j < n,
    ((List.range n).map fun k => M i k * adj n M k j).sum = (if i = j then det n M else 0) ∧
    ((List.range n).map fun k => adj n M i k * M k j).sum = (if i = j then det n M else 0)

/-- R94. MDET delivers the exact determinant of the operand matrix when it has a 32-bit signed pattern and records
ResultOverflow otherwise; MDET.R delivers the residue mod 26 whatever the cells hold; a size field of 0 or 1 is
recorded as BadDimension before anything else. Nothing but x[rd] changes. -/
def Obligations.MdetDeliversDeterminant : Prop :=
  ∀ (rd : Reg) (n : SizeField) (s : State),
    (∀ r, decode (assemble 0x20 rd 0 0 n r.bit) = .ok (.mdet rd n r)) ∧
    (2 ≤ n.val → -2 ^ 31 ≤ (s.operand n.val).det → (s.operand n.val).det ≤ 2 ^ 31 - 1 →
      (BitVec.ofInt 32 (s.operand n.val).det).toInt = (s.operand n.val).det ∧
      exec (.mdet rd n .exact) s = .next { s with x := s.x.set rd.val (BitVec.ofInt 32 (s.operand n.val).det) }) ∧
    (2 ≤ n.val → (s.operand n.val).det < -2 ^ 31 ∨ 2 ^ 31 - 1 < (s.operand n.val).det →
      exec (.mdet rd n .exact) s = .next (s.recorded 7 0#32 (assemble 0x20 rd 0 0 n 0))) ∧
    (2 ≤ n.val → exec (.mdet rd n .reduced) s =
      .next { s with x := s.x.set rd.val (BitVec.ofInt 32 ((s.operand n.val).det % 26)) }) ∧
    (n.val < 2 → ∀ r, exec (.mdet rd n r) s =
      .next (s.recorded 2 (BitVec.ofNat 32 n.val) (assemble 0x20 rd 0 0 n r.bit)))

/-- R95. MADJ writes the exact adjugate of the operand matrix to MR when every entry has a 32-bit signed pattern, and
otherwise records ResultOverflow and writes no cell; MADJ.R writes the residues mod 26; cells N·N and beyond keep
their values, and nothing but MR changes; a size field of 0 or 1 is BadDimension. -/
def Obligations.MadjDeliversAdjugate : Prop :=
  ∀ (n : SizeField) (s : State), Memory.wf Config.matrixCells s.MR = true →
    (∀ r, decode (assemble 0x21 0 0 0 n r.bit) = .ok (.madj n r)) ∧
    (2 ≤ n.val → (∀ i j, -2 ^ 31 ≤ (s.operand n.val).adjugate i j ∧ (s.operand n.val).adjugate i j ≤ 2 ^ 31 - 1) →
      ∃ t, exec (.madj n .exact) s = .next t ∧ t = { s with MR := t.MR } ∧
        t.result n.val = (s.operand n.val).adjugate ∧
        ∀ a, n.val * n.val ≤ a → Memory.read t.MR a = Memory.read s.MR a) ∧
    (2 ≤ n.val →
      (∃ i j, (s.operand n.val).adjugate i j < -2 ^ 31 ∨ 2 ^ 31 - 1 < (s.operand n.val).adjugate i j) →
      exec (.madj n .exact) s = .next (s.recorded 7 0#32 (assemble 0x21 0 0 0 n 0))) ∧
    (2 ≤ n.val → ∃ t, exec (.madj n .reduced) s = .next t ∧ t = { s with MR := t.MR } ∧
        (∀ i j, t.result n.val i j = (s.operand n.val).adjugate i j % 26) ∧
        ∀ a, n.val * n.val ≤ a → Memory.read t.MR a = Memory.read s.MR a) ∧
    (n.val < 2 → ∀ r, exec (.madj n r) s =
      .next (s.recorded 2 (BitVec.ofNat 32 n.val) (assemble 0x21 0 0 0 n r.bit)))

/-- R96. With v the inverse mod 26 of the operand's determinant, MINV writes v·adj(M) mod 26 to MR with no further
transposition, and changes nothing else; a determinant that is none of the twelve units mod 26 is recorded as
NonInvertibleMatrix with its residue; a size field of 0 or 1 is BadDimension. -/
def Obligations.MinvDeliversScaledAdjugate : Prop :=
  ∀ (n : SizeField) (s : State), Memory.wf Config.matrixCells s.MR = true →
    decode (assemble 0x22 0 0 0 n 0) = .ok (.minv n) ∧
    (2 ≤ n.val → (s.operand n.val).det % 26 ∈ ([1, 3, 5, 7, 9, 11, 15, 17, 19, 21, 23, 25] : List Int) →
      ∃ v : Int, 1 ≤ v ∧ v < 26 ∧ (s.operand n.val).det % 26 * v % 26 = 1 ∧
      ∃ t, exec (.minv n) s = .next t ∧ t = { s with MR := t.MR } ∧
        (∀ i j, t.result n.val i j = v * (s.operand n.val).adjugate i j % 26) ∧
        ∀ a, n.val * n.val ≤ a → Memory.read t.MR a = Memory.read s.MR a) ∧
    (2 ≤ n.val → (s.operand n.val).det % 26 ∉ ([1, 3, 5, 7, 9, 11, 15, 17, 19, 21, 23, 25] : List Int) →
      exec (.minv n) s = .next
        (s.recorded 6 (BitVec.ofInt 32 ((s.operand n.val).det % 26)) (assemble 0x22 0 0 0 n 0))) ∧
    (n.val < 2 → exec (.minv n) s =
      .next (s.recorded 2 (BitVec.ofNat 32 n.val) (assemble 0x22 0 0 0 n 0)))

/-- R99. When MINV commits, the matrix it wrote is the inverse of the operand mod 26 on both sides; it records
NonInvertibleMatrix exactly when no integer matrix is such an inverse, namely when gcd(det mod 26, 26) ≠ 1. -/
def Obligations.MinvInvertsModulo26 : Prop :=
  ∀ (n : SizeField) (s : State), Memory.wf Config.matrixCells s.MR = true → 2 ≤ n.val →
    (Int.gcd ((s.operand n.val).det % 26) 26 = 1 → ∃ t, exec (.minv n) s = .next t ∧
      ∀ i j, (s.operand n.val * t.result n.val) i j % 26 = (1 : Matrix (Fin n.val) (Fin n.val) Int) i j ∧
        (t.result n.val * s.operand n.val) i j % 26 = (1 : Matrix (Fin n.val) (Fin n.val) Int) i j) ∧
    (Int.gcd ((s.operand n.val).det % 26) 26 ≠ 1 →
      (∃ info, exec (.minv n) s = .next (s.recorded 6 info (assemble 0x22 0 0 0 n 0))) ∧
      ¬ ∃ Q : Matrix (Fin n.val) (Fin n.val) Int,
        ∀ i j, (s.operand n.val * Q) i j % 26 = (1 : Matrix (Fin n.val) (Fin n.val) Int) i j)

/-- R98. MDET.R, MADJ.R and MINV depend on MA only through the residues of its cells mod 26: on two matrix memories
whose cells agree mod 26, each does the same to everything else. -/
def Obligations.ReducedResultsDependOnResidues : Prop :=
  ∀ (rd : Reg) (n : SizeField) (s : State) (ma : Memory 32),
    (∀ a, a < n.val * n.val → (Memory.read s.MA a).toInt % 26 = (Memory.read ma a).toInt % 26) →
    ∀ i ∈ [Instr.mdet rd n .reduced, Instr.madj n .reduced, Instr.minv n], ∃ t,
      exec i s = .next t ∧ exec i { s with MA := ma } = .next { t with MA := ma }

/-- R97, the bounds: for 32-bit cells the determinant the engine computes of the operand matrix is below 2^96 in
magnitude for N = 3 and at most 2^63 for N = 2. -/
def Obligations.DeterminantStaysBelow97Bits : Prop :=
  ∀ s : State, |det 3 (s.matrix 3)| < 2 ^ 96 ∧ |det 2 (s.matrix 2)| ≤ 2 ^ 63

/-! ### Playfair commands (spec/42_playfair.md) -/

/-- R106. A character code is a letter index or nothing: upper and lower case letters alike, J as I, every other code
stripped; the result is never 9. -/
def Obligations.KeyCharacterIsNormalised : Prop :=
  ∀ b : Byte,
    (∀ v, v < 26 → b.toNat = 0x41 + v → norm b = some (if v = 9 then 8 else v)) ∧
    (∀ v, v < 26 → b.toNat = 0x61 + v → norm b = some (if v = 9 then 8 else v)) ∧
    ((b.toNat ≤ 0x40 ∨ (0x5B ≤ b.toNat ∧ b.toNat ≤ 0x60) ∨ 0x7B ≤ b.toNat) → norm b = none) ∧
    norm b ≠ some 9

/-- R107. PFBUILD writes to KSQ the letters of the key in order of first occurrence and then the unused letters of
the alphabet in order, all 25 cells, and sets STATUS.KV; nothing else changes. A key length above 64 is recorded as
BadLength with KSQ and KV unchanged. -/
def Obligations.PfbuildBuildsKeySquare : Prop :=
  ∀ s : State, Memory.wf Config.squareCells s.KSQ = true →
    decode 0x30000000#32 = .ok .pfbuild ∧
    (s.KLEN.toNat ≤ 64 → ∃ t, exec .pfbuild s = .next t ∧
      t = { s with KSQ := t.KSQ, STATUS := s.STATUS ||| 0x2#32 } ∧
      t.squareList = s.letters.eraseDups ++
        ((List.range 26).filter fun v => decide (v ≠ 9) && decide (v ∉ s.letters)) ∧
      Memory.wf Config.squareCells t.KSQ = true) ∧
    (64 < s.KLEN.toNat → exec .pfbuild s = .next (s.recorded 8 s.KLEN 0x30000000#32))

/-- R108. In every state of the invariant with STATUS.KV = 1, each letter but J stands in exactly one of the 25 cells
of KSQ, and no cell holds any other value. -/
def Obligations.KeySquareHoldsEachLetterOnce : Prop :=
  ∀ s : State, s.Inv → s.KV = true →
    s.squareList.Perm ((List.range 26).filter fun v => decide (v ≠ 9)) ∧
    (∀ v : Int, 0 ≤ v → v < 26 → v ≠ 9 → ∃! p : Nat × Nat, s.HoldsAt v p.1 p.2) ∧
    (∀ v : Int, v = 9 ∨ v < 0 ∨ 25 < v → s.Absent v)

/-- R110. PFPOS delivers the row and the column of the letter in x[rs1], read before either destination is written,
and changes nothing else; without a valid square it records KeySquareInvalid, and for a value no cell holds
LetterNotInSquare. On a valid square those values are 9, the negative ones and those above 25. -/
def Obligations.PfposDeliversPosition : Prop :=
  ∀ (rd rd2 rs1 : Reg) (s : State), rd ≠ rd2 →
    decode (assemble 0x31 rd rs1 rd2 0 0) = .ok (.pfpos rd rd2 rs1) ∧
    (s.KV = true → ∀ r c, s.HoldsAt (s.sint rs1) r c → exec (.pfpos rd rd2 rs1) s =
      .next { s with x := (s.x.set rd.val (BitVec.ofNat 32 r)).set rd2.val (BitVec.ofNat 32 c) }) ∧
    (s.KV = true → s.Absent (s.sint rs1) → exec (.pfpos rd rd2 rs1) s =
      .next (s.recorded 11 (s.reg rs1) (assemble 0x31 rd rs1 rd2 0 0))) ∧
    (s.KV = true → s.Inv → (s.sint rs1 = 9 ∨ s.sint rs1 < 0 ∨ 25 < s.sint rs1) → exec (.pfpos rd rd2 rs1) s =
      .next (s.recorded 11 (s.reg rs1) (assemble 0x31 rd rs1 rd2 0 0))) ∧
    (s.KV = true → s.Inv → 0 ≤ s.sint rs1 → s.sint rs1 ≤ 25 → s.sint rs1 ≠ 9 →
      ∃ r c, s.HoldsAt (s.sint rs1) r c) ∧
    (s.KV = false → exec (.pfpos rd rd2 rs1) s =
      .next (s.recorded 10 0#32 (assemble 0x31 rd rs1 rd2 0 0)))

/-- R111. PFPAIR replaces the pair at (r1, k1), (r2, k2): same row, each letter's right (encrypt) or left (decrypt)
neighbour; else same column, the letter below or above; else each letter's row with its partner's column; wrapping
mod 5, and changing nothing else. KeySquareInvalid is tested first, then the first letter, then the second. -/
def Obligations.PfpairSubstitutesPair : Prop :=
  ∀ (rd rd2 : Reg) (dir : Direction) (s : State), rd ≠ rd2 →
    decode (assemble 0x32 rd 0 rd2 0 dir.bit) = .ok (.pfpair rd rd2 dir) ∧
    (s.KV = true → ∀ r1 k1 r2 k2, s.HoldsAt (s.sint rd) r1 k1 → s.HoldsAt (s.sint rd2) r2 k2 →
      (r1 = r2 → exec (.pfpair rd rd2 .encrypt) s =
        .next (s.setPair rd rd2 (s.letterAt r1 ((k1 + 1) % 5)) (s.letterAt r2 ((k2 + 1) % 5)))) ∧
      (r1 = r2 → exec (.pfpair rd rd2 .decrypt) s =
        .next (s.setPair rd rd2 (s.letterAt r1 ((k1 + 4) % 5)) (s.letterAt r2 ((k2 + 4) % 5)))) ∧
      (r1 ≠ r2 → k1 = k2 → exec (.pfpair rd rd2 .encrypt) s =
        .next (s.setPair rd rd2 (s.letterAt ((r1 + 1) % 5) k1) (s.letterAt ((r2 + 1) % 5) k2))) ∧
      (r1 ≠ r2 → k1 = k2 → exec (.pfpair rd rd2 .decrypt) s =
        .next (s.setPair rd rd2 (s.letterAt ((r1 + 4) % 5) k1) (s.letterAt ((r2 + 4) % 5) k2))) ∧
      (r1 ≠ r2 → k1 ≠ k2 → exec (.pfpair rd rd2 dir) s =
        .next (s.setPair rd rd2 (s.letterAt r1 k2) (s.letterAt r2 k1)))) ∧
    (s.KV = true → s.Absent (s.sint rd) → exec (.pfpair rd rd2 dir) s =
      .next (s.recorded 11 (s.reg rd) (assemble 0x32 rd 0 rd2 0 dir.bit))) ∧
    (s.KV = true → ∀ r c, s.HoldsAt (s.sint rd) r c → s.Absent (s.sint rd2) → exec (.pfpair rd rd2 dir) s =
      .next (s.recorded 11 (s.reg rd2) (assemble 0x32 rd 0 rd2 0 dir.bit))) ∧
    (s.KV = false → exec (.pfpair rd rd2 dir) s =
      .next (s.recorded 10 0#32 (assemble 0x32 rd 0 rd2 0 dir.bit)))

/-- R112. On a valid square, with two letters of it (equal or not) in two registers, PFPAIR.E and then PFPAIR.D, or
the other way round, restores the whole state. -/
def Obligations.PfpairDecryptUndoesEncrypt : Prop :=
  ∀ (rd rd2 : Reg) (s : State), rd ≠ rd2 → s.Inv → s.KV = true →
    (0 ≤ s.sint rd ∧ s.sint rd ≤ 25 ∧ s.sint rd ≠ 9) → (0 ≤ s.sint rd2 ∧ s.sint rd2 ≤ 25 ∧ s.sint rd2 ≠ 9) →
    (∃ t, exec (.pfpair rd rd2 .encrypt) s = .next t ∧ exec (.pfpair rd rd2 .decrypt) t = .next s) ∧
    (∃ t, exec (.pfpair rd rd2 .decrypt) s = .next t ∧ exec (.pfpair rd rd2 .encrypt) t = .next s)

/-- R113. STATUS.KV is 0 after reset, 1 after a PFBUILD that commits, 0 after any host write to KLEN or to a KBUF
cell, and nothing else changes it: no other command (CLRF, PFPOS, PFPAIR and every fault among them), no illegal or
discarded word, no host read and no other host write. No command but PFBUILD changes the square, and a PFBUILD while
KV is 1, in a state of the invariant, changes nothing at all. -/
def Obligations.KeyValidBitLifecycle : Prop :=
  (∀ s t : State, transact .reset s = .next t → t.KV = false) ∧
  (∀ s t : State, exec .pfbuild s = .next t →
    (s.KLEN.toNat ≤ 64 → t.KV = true) ∧ (64 < s.KLEN.toNat → t.KV = s.KV)) ∧
  (∀ (i : Instr) (s t : State), i ≠ .pfbuild → exec i s = .next t → t.KV = s.KV ∧ t.KSQ = s.KSQ) ∧
  (∀ s : State, s.Inv → s.KV = true → exec .pfbuild s = .next s) ∧
  (∀ (w : Word) (s t : State), w ≠ 0x30000000#32 → presentCommand w s = .next t → t.KV = s.KV) ∧
  (∀ (i : Fin 1024) (w : Word) (s t : State), (i.val = 5 ∨ (128 ≤ i.val ∧ i.val < 192)) →
    transact (.write i w) s = .next t → t.KV = false) ∧
  (∀ (i : Fin 1024) (w : Word) (s t : State), ¬ (i.val = 0 ∨ i.val = 5 ∨ (128 ≤ i.val ∧ i.val < 192)) →
    transact (.write i w) s = .next t → t.KV = s.KV) ∧
  (∀ (i : Fin 1024) (s t : State), transact (.read i) s = .next t → t.KV = s.KV)

/-! ### Transposition commands (spec/43_transposition.md) -/

/-- R120. With R = ceil(L/k) rows, the run length of a column is R or R − 1 by the rule's formula, and it counts the
text indices of the column. -/
def Obligations.RunLengthCountsColumnCells : Prop :=
  ∀ L k : Nat, 1 ≤ k →
    L ≤ numRows L k * k ∧ (1 ≤ L → (numRows L k - 1) * k < L) ∧
    ∀ j < k, runLen L k j = ((List.range L).filter fun i => decide (i % k = j)).length ∧
      runLen L k j = (if j < L % k ∨ L % k = 0 then numRows L k else numRows L k - 1)

/-- R121. π(o) is the text index of the o-th cell visited column-major: o lies r cells into a column c that starts
after the run lengths of the columns before it, and π(o) = r·k + c. π maps {0, ..., L − 1} onto itself one to one. -/
def Obligations.TransposeIndexVisitsColumnMajor : Prop :=
  ∀ L k : Nat, 1 ≤ k →
    (∀ o < L, ∃ c r, c < k ∧ r < runLen L k c ∧ o = ((List.range c).map (runLen L k)).sum + r ∧
      transposeIndex L k o = r * k + c ∧ transposeIndex L k o < L) ∧
    (∀ o < L, ∀ o' < L, transposeIndex L k o = transposeIndex L k o' → o = o') ∧
    (∀ i < L, ∃ o < L, transposeIndex L k o = i)

/-- R122. The closed form of start(c) is the sum of the run lengths before column c; π and π⁻¹ undo each other; and π
is the identity for one column and for one row. -/
def Obligations.InverseIndexUndoesTransposeIndex : Prop :=
  ∀ L k : Nat, 1 ≤ k →
    (∀ c ≤ k, startOf L k c = ((List.range c).map (runLen L k)).sum) ∧
    (∀ i < L, inverseIndex L k i = ((List.range (i % k)).map (runLen L k)).sum + i / k ∧
      inverseIndex L k i < L ∧ transposeIndex L k (inverseIndex L k i) = i) ∧
    (∀ o < L, inverseIndex L k (transposeIndex L k o) = o) ∧
    (k = 1 ∨ L ≤ k → ∀ o < L, transposeIndex L k o = o)

/-- R124 with R123. TPIDX delivers π(v) and TPIDX.I delivers π⁻¹(v) for 0 ≤ v < L, changing nothing but x[rd];
BadLength is tested first, then BadColumns, then OperandRange. -/
def Obligations.TpidxDeliversIndexMapping : Prop :=
  ∀ (rd rs1 : Reg) (inv : IndexMap) (s : State),
    decode (assemble 0x40 rd rs1 0 0 inv.bit) = .ok (.tpidx rd rs1 inv) ∧
    (s.TLEN.toNat ≤ 256 → 1 ≤ s.TCOLS.toNat → ∀ v : Nat, s.sint rs1 = v → v < s.TLEN.toNat →
      exec (.tpidx rd rs1 .forward) s = .next
        { s with x := s.x.set rd.val (BitVec.ofNat 32 (transposeIndex s.TLEN.toNat s.TCOLS.toNat v)) } ∧
      ∃ o, o < s.TLEN.toNat ∧ transposeIndex s.TLEN.toNat s.TCOLS.toNat o = v ∧
        exec (.tpidx rd rs1 .inverse) s = .next { s with x := s.x.set rd.val (BitVec.ofNat 32 o) }) ∧
    (s.TLEN.toNat ≤ 256 → 1 ≤ s.TCOLS.toNat → (s.sint rs1 < 0 ∨ s.sint rs1 ≥ s.TLEN.toNat) →
      exec (.tpidx rd rs1 inv) s =
        .next (s.recorded 4 (s.reg rs1) (assemble 0x40 rd rs1 0 0 inv.bit))) ∧
    (256 < s.TLEN.toNat → exec (.tpidx rd rs1 inv) s =
      .next (s.recorded 8 s.TLEN (assemble 0x40 rd rs1 0 0 inv.bit))) ∧
    (s.TLEN.toNat ≤ 256 → s.TCOLS.toNat = 0 → exec (.tpidx rd rs1 inv) s =
      .next (s.recorded 9 0#32 (assemble 0x40 rd rs1 0 0 inv.bit)))

/-- R125 with R123. TPOSE writes OBUF[o] = TBUF[π(o)] for every o below the length, keeps the other cells of OBUF,
and changes nothing else; BadLength is tested first, then BadColumns. -/
def Obligations.TposeGathersText : Prop :=
  ∀ s : State, Memory.wf Config.tcap s.OBUF = true →
    decode 0x41000000#32 = .ok .tpose ∧
    (s.TLEN.toNat ≤ 256 → 1 ≤ s.TCOLS.toNat → ∃ t, exec .tpose s = .next t ∧ t = { s with OBUF := t.OBUF } ∧
      (∀ o < s.TLEN.toNat, Memory.read t.OBUF o =
        Memory.read s.TBUF (transposeIndex s.TLEN.toNat s.TCOLS.toNat o)) ∧
      ∀ a, s.TLEN.toNat ≤ a → Memory.read t.OBUF a = Memory.read s.OBUF a) ∧
    (256 < s.TLEN.toNat → exec .tpose s = .next (s.recorded 8 s.TLEN 0x41000000#32)) ∧
    (s.TLEN.toNat ≤ 256 → s.TCOLS.toNat = 0 → exec .tpose s = .next (s.recorded 9 0#32 0x41000000#32))

/-- R126 with R123. TINV writes OBUF[π(o)] = TBUF[o] for every o below the length, keeps the other cells of OBUF, and
changes nothing else; BadLength is tested first, then BadColumns. -/
def Obligations.TinvScattersText : Prop :=
  ∀ s : State, Memory.wf Config.tcap s.OBUF = true →
    decode 0x42000000#32 = .ok .tinv ∧
    (s.TLEN.toNat ≤ 256 → 1 ≤ s.TCOLS.toNat → ∃ t, exec .tinv s = .next t ∧ t = { s with OBUF := t.OBUF } ∧
      (∀ o < s.TLEN.toNat, Memory.read t.OBUF (transposeIndex s.TLEN.toNat s.TCOLS.toNat o) =
        Memory.read s.TBUF o) ∧
      ∀ a, s.TLEN.toNat ≤ a → Memory.read t.OBUF a = Memory.read s.OBUF a) ∧
    (256 < s.TLEN.toNat → exec .tinv s = .next (s.recorded 8 s.TLEN 0x42000000#32)) ∧
    (s.TLEN.toNat ≤ 256 → s.TCOLS.toNat = 0 → exec .tinv s = .next (s.recorded 9 0#32 0x42000000#32))

/-- R127. With the length and the column count held, one command, the result copied into TBUF, and the other command
leave the first text in OBUF, in both orders. -/
def Obligations.TranspositionRoundTrip : Prop :=
  ∀ (s : State) (copy : Memory 8), Memory.wf Config.tcap s.OBUF = true →
    s.TLEN.toNat ≤ 256 → 1 ≤ s.TCOLS.toNat →
    ∀ p ∈ [(Instr.tpose, Instr.tinv), (Instr.tinv, Instr.tpose)], ∃ t, exec p.1 s = .next t ∧
      ((∀ a < s.TLEN.toNat, Memory.read copy a = Memory.read t.OBUF a) →
        ∃ u, exec p.2 { t with TBUF := copy } = .next u ∧
          ∀ a < s.TLEN.toNat, Memory.read u.OBUF a = Memory.read s.TBUF a)

/-! ### CLRF, faults and the gate (spec/44_system.md, spec/60_exceptions.md) -/

/-- R135. CLRF clears STATUS.F, FCODE, FINFO and FCMD and changes nothing else; it is executed whether or not a fault
is recorded, and with none recorded it changes nothing. A word with opcode 0x01 and any other bit set is illegal, and
while a fault is recorded every word but that of CLRF is discarded. -/
def Obligations.ClrfClearsRecordedFault : Prop :=
  decode 0x01000000#32 = .ok .clrf ∧
  (∀ w : Word, w.extractLsb' 24 8 = 0x01#8 → w ≠ 0x01000000#32 → ∀ i, decode w ≠ .ok i) ∧
  (∀ (w : Word) (s : State), s.F = true → w ≠ 0x01000000#32 → presentCommand w s = .next s) ∧
  ∀ s : State,
    exec .clrf s =
      .next { s with STATUS := s.STATUS &&& 0xFFFFFFFE#32, FCODE := 0#32, FINFO := 0#32, FCMD := 0#32 } ∧
    presentCommand 0x01000000#32 s = exec .clrf s ∧
    (s.Inv → s.F = false → exec .clrf s = .next s)

/-- R142. A command that faults writes none of its destinations: the state after it is the state before it plus the
four writes of R141, the code one of 1 to 11 and FCMD the very word written. -/
def Obligations.FaultIsPrecise : Prop :=
  ∀ (w : Word) (s t : State), s.F = false → presentCommand w s = .next t → t.F = true →
    ∃ (code : Nat) (info : Word), 1 ≤ code ∧ code ≤ 11 ∧ t = s.recorded code info w

/-- R140, the columns "code" and "raised by": a command of the opcode map records no fault but its own. CLRF records
none. -/
def Obligations.CommandRaisesOnlyItsFaults : Prop :=
  ∀ (i : Instr) (s t : State), i.wellFormed = true → s.F = false → exec i s = .next t →
    (t.F = false ∧ t.FCODE = (if i = .clrf then 0#32 else s.FCODE)) ∨
      (t.F = true ∧ t.FCODE.toNat ∈ possibleFaults i)

/-- R65 with R64 and R66. A word that matches no row of the opcode map, or that PFPOS or PFPAIR matches with
rd = rd2, records IllegalCommand with FINFO 0 and changes nothing else. -/
def Obligations.IllegalWordIsRecorded : Prop :=
  ∀ (w : Word) (s : State), s.F = false →
    ((∀ r ∈ opcodeTable, w &&& r.mask ≠ r.pattern) ∨
      ((w &&& 0xFF007FFF#32 = 0x31000000#32 ∨ w &&& 0xFF1C6FFF#32 = 0x32000000#32) ∧
        w.extractLsb' 21 3 = w.extractLsb' 15 3)) →
    presentCommand w s = .next (s.recorded 1 0#32 w)

/-- R143. While a fault is recorded, a write to CMD of any word but that of CLRF changes nothing at all, and host
reads and host writes of data proceed as without it, the clearing of STATUS.KV by a write to KLEN or KBUF included. -/
def Obligations.FaultGateDiscardsCommands : Prop :=
  ∀ (s : State), s.F = true →
    (∀ w, w ≠ 0x01000000#32 → presentCommand w s = .next s) ∧
    (∀ (i : Fin 1024), transact (.read i) s = .next { s with rdata := some (hostRead i s) }) ∧
    (∀ (i : Fin 1024) (w : Word), i.val ≠ 0 → transact (.write i w) s = .next (hostStore i w s) ∧
      (hostStore i w s).F = true ∧ ((hostStore i w s).KV =
        if i.val = 5 ∨ (128 ≤ i.val ∧ i.val < 192) then false else s.KV))

/-- R70. A write to CMD does exactly one of three things, tested in this order: the gate, IllegalCommand(0), the
matched command. -/
def Obligations.CommandWriteDispatch : Prop :=
  ∀ (w : Word) (s : State),
    (s.F = true → w = 0x01000000#32 → presentCommand w s = exec .clrf s) ∧
    (s.F = true → w ≠ 0x01000000#32 → presentCommand w s = .next s) ∧
    (s.F = false → (∀ i, decode w ≠ .ok i) → presentCommand w s = .next (s.recorded 1 0#32 w)) ∧
    (∀ i, s.F = false → decode w = .ok i → presentCommand w s = exec i s)

/-- R137. A host may batch commands: once a fault is recorded, any number of writes to CMD without a CLRF leave the
unit as it was, so FCMD still names the first command that failed. The list of the host's transactions and the read
data are the model's own fields (notes/assumptions/1.md and 2.md); no read data is pending to begin with. -/
def Obligations.FaultGateHoldsForBatch : Prop :=
  ∀ (ws : List Word) (s : State) (rest : List Transaction), s.F = true → (∀ w ∈ ws, w ≠ 0x01000000#32) →
    s.host = ws.map (Transaction.write 0) ++ rest → s.rdata = none →
    Host.Core.run Sys2Proof.core ws.length s = .next { s with host := rest }

/-- R21 and R49. What a command may write: its destination registers, MR for MADJ and MINV, KSQ and KV for PFBUILD,
OBUF for TPOSE and TINV, and the fault registers; every other register and every cell of every other memory reads as
before. -/
def Obligations.CommandWritesOnlyItsDestinations : Prop :=
  ∀ (i : Instr) (s t : State), exec i s = .next t →
    (t.KLEN = s.KLEN ∧ t.TLEN = s.TLEN ∧ t.TCOLS = s.TCOLS ∧ t.MA = s.MA ∧ t.KBUF = s.KBUF ∧ t.TBUF = s.TBUF ∧
      t.host = s.host ∧ t.rdata = s.rdata) ∧
    (∀ r, r ∉ destinations i → t.reg r = s.reg r) ∧
    ((∀ n r, i ≠ .madj n r) → (∀ n, i ≠ .minv n) → t.MR = s.MR) ∧
    (i ≠ .pfbuild → t.KSQ = s.KSQ) ∧
    (i ≠ .tpose → i ≠ .tinv → t.OBUF = s.OBUF) ∧
    (∀ b, b ≠ 0 → (i = .pfbuild → b ≠ 1) → t.STATUS.getLsbD b = s.STATUS.getLsbD b)

/-! ### Encoding (spec/30_encoding.md) -/

/-- R63. The rows of the opcode map are disjoint: no word matches two of them. -/
def Obligations.OpcodeRowsAreDisjoint : Prop :=
  opcodeTable.length = 13 ∧
  ∀ (w : Word) (r r' : Row), r ∈ opcodeTable → r' ∈ opcodeTable →
    w &&& r.mask = r.pattern → w &&& r'.mask = r'.pattern → r = r'

/-- R61. The fields of a command word sit at their positions: opcode 31:24, rd 23:21, rs1 20:18, rs2 17:15, n 14:13,
f 12, and bits 11:0 are 0. -/
def Obligations.CommandWordFieldsSitInPlace : Prop :=
  ∀ (opcode rd rs1 rs2 n f : Nat), opcode < 256 → rd < 8 → rs1 < 8 → rs2 < 8 → n < 4 → f < 2 →
    ((assemble opcode rd rs1 rs2 n f).extractLsb' 24 8).toNat = opcode ∧
    ((assemble opcode rd rs1 rs2 n f).extractLsb' 21 3).toNat = rd ∧
    ((assemble opcode rd rs1 rs2 n f).extractLsb' 18 3).toNat = rs1 ∧
    ((assemble opcode rd rs1 rs2 n f).extractLsb' 15 3).toNat = rs2 ∧
    ((assemble opcode rd rs1 rs2 n f).extractLsb' 13 2).toNat = n ∧
    ((assemble opcode rd rs1 rs2 n f).extractLsb' 12 1).toNat = f ∧
    ((assemble opcode rd rs1 rs2 n f).extractLsb' 0 12).toNat = 0

/-- Decoding the encoding of any well-formed command gives the command back, every operand at every value. -/
def Obligations.DecodeOfEncodeIsIdentity : Prop :=
  ∀ i : Instr, i.wellFormed = true → decode (encode i) = .ok i

/-- Every word that decodes is the encoding of the command it decodes to, and that command is well-formed: a word
has one meaning and no bit of it is dropped. -/
def Obligations.EncodeOfDecodeIsIdentity : Prop :=
  ∀ (w : Word) (i : Instr), decode w = .ok i → encode i = w ∧ i.wellFormed = true

/-- R66 and R63. A word decodes exactly when it matches a row and is not a PFPOS or PFPAIR word with rd = rd2. -/
def Obligations.WordDecodesExactlyWhenLegal : Prop :=
  ∀ w : Word, (∃ i, decode w = .ok i) ↔
    (∃ r ∈ opcodeTable, w &&& r.mask = r.pattern) ∧
    ¬ ((w.extractLsb' 24 8 = 0x31#8 ∨ w.extractLsb' 24 8 = 0x32#8) ∧ w.extractLsb' 21 3 = w.extractLsb' 15 3)

/-- R68. The example words of the assembler table decode to the commands they are written for. -/
def Obligations.ExampleWordsDecode : Prop :=
  decode 0x01000000#32 = .ok .clrf ∧ decode 0x10408000#32 = .ok (.mod 2 0 1) ∧
  decode 0x11408000#32 = .ok (.gcd 2 0 1) ∧ decode 0x12608000#32 = .ok (.modinv 3 0 1) ∧
  decode 0x20804000#32 = .ok (.mdet 4 2 .exact) ∧ decode 0x20807000#32 = .ok (.mdet 4 3 .reduced) ∧
  decode 0x21006000#32 = .ok (.madj 3 .exact) ∧ decode 0x21005000#32 = .ok (.madj 2 .reduced) ∧
  decode 0x22004000#32 = .ok (.minv 2) ∧ decode 0x30000000#32 = .ok .pfbuild ∧
  decode 0x31210000#32 = .ok (.pfpos 1 2 0) ∧ decode 0x32008000#32 = .ok (.pfpair 0 1 .encrypt) ∧
  decode 0x32009000#32 = .ok (.pfpair 0 1 .decrypt) ∧ decode 0x40200000#32 = .ok (.tpidx 1 0 .forward) ∧
  decode 0x40201000#32 = .ok (.tpidx 1 0 .inverse) ∧ decode 0x41000000#32 = .ok .tpose ∧
  decode 0x42000000#32 = .ok .tinv

/-! ### Reset, the host window and the step (spec/70_reset_and_hazards.md, spec/20_memory.md, spec/00_scope.md) -/

/-- R39. Reset leaves every register and every cell 0, whatever the state was. -/
def Obligations.ResetClearsEverything : Prop :=
  ∀ s : State,
    ∃ t, transact .reset s = .next t ∧ (∀ r, t.reg r = 0#32) ∧
      t.STATUS = 0#32 ∧ t.FCODE = 0#32 ∧ t.FINFO = 0#32 ∧ t.FCMD = 0#32 ∧
      t.KLEN = 0#32 ∧ t.TLEN = 0#32 ∧ t.TCOLS = 0#32 ∧
      ∀ a, Memory.read t.MA a = 0#32 ∧ Memory.read t.MR a = 0#32 ∧ Memory.read t.KSQ a = 0#5 ∧
        Memory.read t.KBUF a = 0#8 ∧ Memory.read t.TBUF a = 0#8 ∧ Memory.read t.OBUF a = 0#8

/-- R166. Straight after reset every command is defined: MOD and MODINV record BadModulus, GCD and MDET deliver 0,
MADJ writes zeros, MINV records NonInvertibleMatrix with 0, PFBUILD builds the plain-alphabet square, PFPOS and
PFPAIR record KeySquareInvalid, TPIDX, TPOSE and TINV record BadColumns. -/
def Obligations.CommandsStraightAfterReset : Prop :=
  (∀ rd rs1 rs2, exec (.mod rd rs1 rs2) State.reset =
    .next (State.reset.recorded 3 0#32 (assemble 0x10 rd rs1 rs2 0 0))) ∧
  (∀ rd rs1 rs2, exec (.modinv rd rs1 rs2) State.reset =
    .next (State.reset.recorded 3 0#32 (assemble 0x12 rd rs1 rs2 0 0))) ∧
  (∀ rd rs1 rs2, exec (.gcd rd rs1 rs2) State.reset = .next State.reset) ∧
  (∀ rd n r, 2 ≤ n.val → exec (.mdet rd n r) State.reset = .next State.reset) ∧
  (∀ n r, 2 ≤ n.val → exec (.madj n r) State.reset = .next State.reset) ∧
  (∀ n, 2 ≤ n.val → exec (.minv n) State.reset = .next (State.reset.recorded 6 0#32 (assemble 0x22 0 0 0 n 0))) ∧
  (∃ t, exec .pfbuild State.reset = .next t ∧ t.STATUS = 2#32 ∧
    t.squareList = [0, 1, 2, 3, 4, 5, 6, 7, 8, 10, 11, 12, 13, 14, 15, 16, 17, 18, 19, 20, 21, 22, 23, 24, 25]) ∧
  (∀ rd rd2 rs1, rd ≠ rd2 → exec (.pfpos rd rd2 rs1) State.reset =
    .next (State.reset.recorded 10 0#32 (assemble 0x31 rd rs1 rd2 0 0))) ∧
  (∀ rd rd2 dir, rd ≠ rd2 → exec (.pfpair rd rd2 dir) State.reset =
    .next (State.reset.recorded 10 0#32 (assemble 0x32 rd 0 rd2 0 dir.bit))) ∧
  (∀ rd rs1 inv, exec (.tpidx rd rs1 inv) State.reset =
    .next (State.reset.recorded 9 0#32 (assemble 0x40 rd rs1 0 0 inv.bit))) ∧
  exec .tpose State.reset = .next (State.reset.recorded 9 0#32 0x41000000#32) ∧
  exec .tinv State.reset = .next (State.reset.recorded 9 0#32 0x42000000#32) ∧
  exec .clrf State.reset = .next State.reset

/-- R42. What a host read returns at each word index of the map; it changes no state, its word being the read data of
the transaction (R10), which the model holds in `rdata`. -/
def Obligations.HostReadReturnsWindowWord : Prop :=
  ∀ s : State,
    (∀ i : Fin 1024, transact (.read i) s = .next { s with rdata := some (hostRead i s) }) ∧
    hostRead 0 s = 0#32 ∧ hostRead 1 s = s.STATUS ∧ hostRead 2 s = s.FCODE ∧ hostRead 3 s = s.FINFO ∧
    hostRead 4 s = s.FCMD ∧ hostRead 5 s = s.KLEN ∧ hostRead 6 s = s.TLEN ∧ hostRead 7 s = s.TCOLS ∧
    (∀ i : Fin 1024,
      (∀ r : Reg, i.val = 16 + r.val → hostRead i s = s.reg r) ∧
      (∀ c < 9, i.val = 32 + c → hostRead i s = Memory.read s.MA c) ∧
      (∀ c < 9, i.val = 48 + c → hostRead i s = Memory.read s.MR c) ∧
      (∀ c < 25, i.val = 64 + c → (hostRead i s).toNat = (Memory.read s.KSQ c).toNat) ∧
      (∀ c < 64, i.val = 128 + c → (hostRead i s).toNat = (Memory.read s.KBUF c).toNat) ∧
      (∀ c < 256, i.val = 256 + c → (hostRead i s).toNat = (Memory.read s.TBUF c).toNat) ∧
      (∀ c < 256, i.val = 512 + c → (hostRead i s).toNat = (Memory.read s.OBUF c).toNat) ∧
      (((8 ≤ i.val ∧ i.val < 16) ∨ (24 ≤ i.val ∧ i.val < 32) ∨ (41 ≤ i.val ∧ i.val < 48) ∨
        (57 ≤ i.val ∧ i.val < 64) ∨ (89 ≤ i.val ∧ i.val < 128) ∨ (192 ≤ i.val ∧ i.val < 256) ∨ 768 ≤ i.val) →
        hostRead i s = 0#32))

/-- R43 with R44 and R45. What a host write does at each word index: a register or cell takes the word (a buffer cell
its low eight bits) and every other register and cell is unchanged, KLEN and KBUF also clear STATUS.KV, CMD is a
command, and a read-only or reserved word ignores the write. -/
def Obligations.HostWriteStoresOperand : Prop :=
  ∀ (w : Word) (s : State),
    transact (.write 0 w) s = presentCommand w s ∧
    transact (.write 5 w) s = .next { s with KLEN := w, STATUS := s.STATUS &&& 0xFFFFFFFD#32 } ∧
    transact (.write 6 w) s = .next { s with TLEN := w } ∧
    transact (.write 7 w) s = .next { s with TCOLS := w } ∧
    (∀ i : Fin 1024,
      (∀ r : Reg, i.val = 16 + r.val → transact (.write i w) s = .next { s with x := s.x.set r.val w }) ∧
      (∀ c < 9, i.val = 32 + c → Memory.wf 9 s.MA = true → ∃ m, transact (.write i w) s = .next { s with MA := m } ∧
        ∀ a, Memory.read m a = if a = c then w else Memory.read s.MA a) ∧
      (∀ c < 64, i.val = 128 + c → Memory.wf 64 s.KBUF = true → ∃ m, transact (.write i w) s =
          .next { s with KBUF := m, STATUS := s.STATUS &&& 0xFFFFFFFD#32 } ∧
        ∀ a, Memory.read m a = if a = c then w.extractLsb' 0 8 else Memory.read s.KBUF a) ∧
      (∀ c < 256, i.val = 256 + c → Memory.wf 256 s.TBUF = true → ∃ m, transact (.write i w) s =
          .next { s with TBUF := m } ∧
        ∀ a, Memory.read m a = if a = c then w.extractLsb' 0 8 else Memory.read s.TBUF a) ∧
      (((1 ≤ i.val ∧ i.val ≤ 4) ∨ (8 ≤ i.val ∧ i.val < 16) ∨ (24 ≤ i.val ∧ i.val < 32) ∨
        (41 ≤ i.val ∧ i.val < 128) ∨ (192 ≤ i.val ∧ i.val < 256) ∨ 512 ≤ i.val) →
        transact (.write i w) s = .next s))

/-- A host read after a host write of the same word returns what the word stores, and a read of any other word but
STATUS returns what it returned before. -/
def Obligations.WindowReadAfterWrite : Prop :=
  ∀ (s : State) (i : Fin 1024) (w : Word), s.Inv → i.val ≠ 0 →
    ((i.val = 5 ∨ i.val = 6 ∨ i.val = 7 ∨ (16 ≤ i.val ∧ i.val < 24) ∨ (32 ≤ i.val ∧ i.val < 41)) →
      hostRead i (hostStore i w s) = w) ∧
    (((128 ≤ i.val ∧ i.val < 192) ∨ (256 ≤ i.val ∧ i.val < 512)) →
      hostRead i (hostStore i w s) = w &&& 0xFF#32) ∧
    (∀ j : Fin 1024, j ≠ i → j.val ≠ 1 → hostRead j (hostStore i w s) = hostRead j s) ∧
    (hostStore i w s).F = s.F

/-- A step whose next transaction writes to CMD a word that decodes to `i`, with no fault recorded, is `exec i` on the
state with that transaction taken and no read data; a word placed by `withFetchWord` runs so. -/
def Obligations.StepRunsDecodedCommand : Prop :=
  ∀ (s : State) (w : Word) (i : Instr), s.F = false → decode w = .ok i →
    (∀ ts, s.host = .write 0 w :: ts → step s = exec i { s with host := ts, rdata := none }) ∧
    step (s.withFetchWord 32 w.toNat) = exec i { s with rdata := none }

/-- R10 and R171. Every step of every state completes: the unit is total, no command hangs, stops the machine or is
refused. -/
def Obligations.EveryStepAnswersNext : Prop :=
  (∀ s : State, ∃ t, step s = .next t) ∧ ∀ (i : Instr) (s : State), ∃ t, exec i s = .next t

/-- R50 and R10. The host's transactions complete one at a time, in the order of issue: a step performs the next
transaction, whole, on the state it finds; with none pending the unit idles and only the read data goes (R152); and one
step for each of `ts` answers the state that performing them in order leads to, with exactly the later transactions
still pending. The list and the read data are the model's own (notes/assumptions/1.md, 2.md and 4.md). -/
def Obligations.ScriptCompletesInOrder : Prop :=
  (∀ s : State, s.host = [] → step s = .next { s with rdata := none }) ∧
  (∀ (s : State) (tr : Transaction) (us : List Transaction), s.host = tr :: us →
    step s = transact tr { s with host := us, rdata := none }) ∧
  ∀ (ts us : List Transaction) (s : State), s.host = ts ++ us →
    ∃ t, Performs ts s t ∧ t.host = us ∧ Host.Core.run Sys2Proof.core ts.length s = .next t ∧
      Host.Core.run Sys2Proof.core (ts.length + us.length) s = Host.Core.run Sys2Proof.core us.length t

/-- The invariant holds after reset, for every choice of the parameters. -/
def Obligations.ResetSatisfiesInvariant : Prop := ∀ p : Config.Params, State.reset.Inv p

/-- Every step keeps the invariant: the memories stay in canonical form inside their capacity, the reserved bits of
STATUS stay 0, FCODE is 0 exactly when STATUS.F is 0 and never above 11, FINFO and FCMD are 0 while no fault is
recorded, and while STATUS.KV is 1 KSQ is the square of the key now in KBUF. -/
def Obligations.EveryStepKeepsInvariant : Prop :=
  ∀ s t : State, s.Inv → step s = .next t → t.Inv

/-! ### The parameters (spec/00_scope.md R4) -/

/-- R4. KCAP and TCAP, whatever they are, bound KLEN in PFBUILD and TLEN in TPIDX, TPOSE and TINV, and do nothing
else: within the bound each command has its effect, above it BadLength is recorded, and two units whose capacities
give the same answers to the two comparisons execute every command alike. -/
def Obligations.CapacitiesBoundLengths : Prop :=
  ∀ (p : Config.Params) (s : State),
    (Memory.wf Config.squareCells s.KSQ = true → s.KLEN.toNat ≤ p.kcap → ∃ t, execAt p .pfbuild s = .next t ∧
      t = { s with KSQ := t.KSQ, STATUS := s.STATUS ||| 0x2#32 } ∧
      t.squareList = s.letters.eraseDups ++
        ((List.range 26).filter fun v => decide (v ≠ 9) && decide (v ∉ s.letters))) ∧
    (p.kcap < s.KLEN.toNat → execAt p .pfbuild s = .next (s.recorded 8 s.KLEN 0x30000000#32)) ∧
    (Memory.wf p.tcap s.OBUF = true → s.TLEN.toNat ≤ p.tcap → 1 ≤ s.TCOLS.toNat →
      (∃ t, execAt p .tpose s = .next t ∧ t = { s with OBUF := t.OBUF } ∧
        (∀ o < s.TLEN.toNat, Memory.read t.OBUF o =
          Memory.read s.TBUF (transposeIndex s.TLEN.toNat s.TCOLS.toNat o)) ∧
        ∀ a, s.TLEN.toNat ≤ a → Memory.read t.OBUF a = Memory.read s.OBUF a) ∧
      ∃ t, execAt p .tinv s = .next t ∧ t = { s with OBUF := t.OBUF } ∧
        (∀ o < s.TLEN.toNat, Memory.read t.OBUF (transposeIndex s.TLEN.toNat s.TCOLS.toNat o) =
          Memory.read s.TBUF o) ∧
        ∀ a, s.TLEN.toNat ≤ a → Memory.read t.OBUF a = Memory.read s.OBUF a) ∧
    (s.TLEN.toNat ≤ p.tcap → 1 ≤ s.TCOLS.toNat → ∀ (rd rs1 : Reg) (v : Nat), s.sint rs1 = v → v < s.TLEN.toNat →
      execAt p (.tpidx rd rs1 .forward) s = .next
        { s with x := s.x.set rd.val (BitVec.ofNat 32 (transposeIndex s.TLEN.toNat s.TCOLS.toNat v)) } ∧
      ∃ o, o < s.TLEN.toNat ∧ transposeIndex s.TLEN.toNat s.TCOLS.toNat o = v ∧
        execAt p (.tpidx rd rs1 .inverse) s = .next { s with x := s.x.set rd.val (BitVec.ofNat 32 o) }) ∧
    (p.tcap < s.TLEN.toNat → execAt p .tpose s = .next (s.recorded 8 s.TLEN 0x41000000#32) ∧
      execAt p .tinv s = .next (s.recorded 8 s.TLEN 0x42000000#32) ∧
      ∀ rd rs1 inv, execAt p (.tpidx rd rs1 inv) s =
        .next (s.recorded 8 s.TLEN (assemble 0x40 rd rs1 0 0 inv.bit))) ∧
    ∀ q : Config.Params, (s.KLEN.toNat ≤ p.kcap ↔ s.KLEN.toNat ≤ q.kcap) →
      (s.TLEN.toNat ≤ p.tcap ↔ s.TLEN.toNat ≤ q.tcap) → ∀ i, execAt p i s = execAt q i s

/-- R4, the defaults: the unit built with the default parameters and the map of R41 is the machine of the other
statements, command by command, transaction by transaction and step by step, and its map shows only cells it has. -/
def Obligations.DefaultBuildIsTheMachine : Prop :=
  (∀ i s, execAt {} i s = exec i s) ∧ (∀ tr s, ({} : Build).transact tr s = transact tr s) ∧
  (∀ s, ({} : Build).step s = step s) ∧ ({} : Build).laidOut

/-- Every step of a unit with any parameters, through any map that shows only cells the unit has, keeps the invariant
of a unit with those parameters. -/
def Obligations.EveryBuildKeepsInvariant : Prop :=
  ∀ b : Build, b.laidOut → ∀ s t : State, s.Inv b.params → b.step s = .next t → t.Inv b.params
end

