-- ==== Sys2Proof/Laws/State.lean ====
section
/-! SUPPORT. One lemma per field per named update of the state, so that no proof unfolds a record update. -/

namespace Sys2Proof.Machine

/-! ### `setReg` -/

@[simp] theorem State.setReg_x (s : State) (r : Reg) (v : Word) : (s.setReg r v).x = s.x.set r.val v := rfl
@[simp] theorem State.setReg_STATUS (s : State) (r : Reg) (v : Word) : (s.setReg r v).STATUS = s.STATUS := rfl
@[simp] theorem State.setReg_FCODE (s : State) (r : Reg) (v : Word) : (s.setReg r v).FCODE = s.FCODE := rfl
@[simp] theorem State.setReg_FINFO (s : State) (r : Reg) (v : Word) : (s.setReg r v).FINFO = s.FINFO := rfl
@[simp] theorem State.setReg_FCMD (s : State) (r : Reg) (v : Word) : (s.setReg r v).FCMD = s.FCMD := rfl
@[simp] theorem State.setReg_KLEN (s : State) (r : Reg) (v : Word) : (s.setReg r v).KLEN = s.KLEN := rfl
@[simp] theorem State.setReg_TLEN (s : State) (r : Reg) (v : Word) : (s.setReg r v).TLEN = s.TLEN := rfl
@[simp] theorem State.setReg_TCOLS (s : State) (r : Reg) (v : Word) : (s.setReg r v).TCOLS = s.TCOLS := rfl
@[simp] theorem State.setReg_MA (s : State) (r : Reg) (v : Word) : (s.setReg r v).MA = s.MA := rfl
@[simp] theorem State.setReg_MR (s : State) (r : Reg) (v : Word) : (s.setReg r v).MR = s.MR := rfl
@[simp] theorem State.setReg_KSQ (s : State) (r : Reg) (v : Word) : (s.setReg r v).KSQ = s.KSQ := rfl
@[simp] theorem State.setReg_KBUF (s : State) (r : Reg) (v : Word) : (s.setReg r v).KBUF = s.KBUF := rfl
@[simp] theorem State.setReg_TBUF (s : State) (r : Reg) (v : Word) : (s.setReg r v).TBUF = s.TBUF := rfl
@[simp] theorem State.setReg_OBUF (s : State) (r : Reg) (v : Word) : (s.setReg r v).OBUF = s.OBUF := rfl
@[simp] theorem State.setReg_host (s : State) (r : Reg) (v : Word) : (s.setReg r v).host = s.host := rfl
@[simp] theorem State.setReg_rdata (s : State) (r : Reg) (v : Word) : (s.setReg r v).rdata = s.rdata := rfl

/-! ### `setResult` -/

@[simp] theorem State.setResult_x (s : State) (n : Nat) (q : IntMatrix) : (s.setResult n q).x = s.x := rfl
@[simp] theorem State.setResult_STATUS (s : State) (n : Nat) (q : IntMatrix) : (s.setResult n q).STATUS = s.STATUS := rfl
@[simp] theorem State.setResult_FCODE (s : State) (n : Nat) (q : IntMatrix) : (s.setResult n q).FCODE = s.FCODE := rfl
@[simp] theorem State.setResult_FINFO (s : State) (n : Nat) (q : IntMatrix) : (s.setResult n q).FINFO = s.FINFO := rfl
@[simp] theorem State.setResult_FCMD (s : State) (n : Nat) (q : IntMatrix) : (s.setResult n q).FCMD = s.FCMD := rfl
@[simp] theorem State.setResult_KLEN (s : State) (n : Nat) (q : IntMatrix) : (s.setResult n q).KLEN = s.KLEN := rfl
@[simp] theorem State.setResult_TLEN (s : State) (n : Nat) (q : IntMatrix) : (s.setResult n q).TLEN = s.TLEN := rfl
@[simp] theorem State.setResult_TCOLS (s : State) (n : Nat) (q : IntMatrix) : (s.setResult n q).TCOLS = s.TCOLS := rfl
@[simp] theorem State.setResult_MA (s : State) (n : Nat) (q : IntMatrix) : (s.setResult n q).MA = s.MA := rfl
@[simp] theorem State.setResult_MR (s : State) (n : Nat) (q : IntMatrix) : (s.setResult n q).MR = Memory.fill s.MR (n * n) fun a => to32 (q (a / n) (a % n)) := rfl
@[simp] theorem State.setResult_KSQ (s : State) (n : Nat) (q : IntMatrix) : (s.setResult n q).KSQ = s.KSQ := rfl
@[simp] theorem State.setResult_KBUF (s : State) (n : Nat) (q : IntMatrix) : (s.setResult n q).KBUF = s.KBUF := rfl
@[simp] theorem State.setResult_TBUF (s : State) (n : Nat) (q : IntMatrix) : (s.setResult n q).TBUF = s.TBUF := rfl
@[simp] theorem State.setResult_OBUF (s : State) (n : Nat) (q : IntMatrix) : (s.setResult n q).OBUF = s.OBUF := rfl
@[simp] theorem State.setResult_host (s : State) (n : Nat) (q : IntMatrix) : (s.setResult n q).host = s.host := rfl
@[simp] theorem State.setResult_rdata (s : State) (n : Nat) (q : IntMatrix) : (s.setResult n q).rdata = s.rdata := rfl

/-! ### `takeFault` -/

@[simp] theorem State.takeFault_x (s : State) (c : Cause) (info w : Word) : (s.takeFault c info w).x = s.x := rfl
@[simp] theorem State.takeFault_STATUS (s : State) (c : Cause) (info w : Word) : (s.takeFault c info w).STATUS = statusSetF s.STATUS := rfl
@[simp] theorem State.takeFault_FCODE (s : State) (c : Cause) (info w : Word) : (s.takeFault c info w).FCODE = c.code := rfl
@[simp] theorem State.takeFault_FINFO (s : State) (c : Cause) (info w : Word) : (s.takeFault c info w).FINFO = info := rfl
@[simp] theorem State.takeFault_FCMD (s : State) (c : Cause) (info w : Word) : (s.takeFault c info w).FCMD = w := rfl
@[simp] theorem State.takeFault_KLEN (s : State) (c : Cause) (info w : Word) : (s.takeFault c info w).KLEN = s.KLEN := rfl
@[simp] theorem State.takeFault_TLEN (s : State) (c : Cause) (info w : Word) : (s.takeFault c info w).TLEN = s.TLEN := rfl
@[simp] theorem State.takeFault_TCOLS (s : State) (c : Cause) (info w : Word) : (s.takeFault c info w).TCOLS = s.TCOLS := rfl
@[simp] theorem State.takeFault_MA (s : State) (c : Cause) (info w : Word) : (s.takeFault c info w).MA = s.MA := rfl
@[simp] theorem State.takeFault_MR (s : State) (c : Cause) (info w : Word) : (s.takeFault c info w).MR = s.MR := rfl
@[simp] theorem State.takeFault_KSQ (s : State) (c : Cause) (info w : Word) : (s.takeFault c info w).KSQ = s.KSQ := rfl
@[simp] theorem State.takeFault_KBUF (s : State) (c : Cause) (info w : Word) : (s.takeFault c info w).KBUF = s.KBUF := rfl
@[simp] theorem State.takeFault_TBUF (s : State) (c : Cause) (info w : Word) : (s.takeFault c info w).TBUF = s.TBUF := rfl
@[simp] theorem State.takeFault_OBUF (s : State) (c : Cause) (info w : Word) : (s.takeFault c info w).OBUF = s.OBUF := rfl
@[simp] theorem State.takeFault_host (s : State) (c : Cause) (info w : Word) : (s.takeFault c info w).host = s.host := rfl
@[simp] theorem State.takeFault_rdata (s : State) (c : Cause) (info w : Word) : (s.takeFault c info w).rdata = s.rdata := rfl

/-! ### `endFault` -/

@[simp] theorem State.endFault_x (s : State) : (s.endFault).x = s.x := rfl
@[simp] theorem State.endFault_STATUS (s : State) : (s.endFault).STATUS = statusClearF s.STATUS := rfl
@[simp] theorem State.endFault_FCODE (s : State) : (s.endFault).FCODE = 0#32 := rfl
@[simp] theorem State.endFault_FINFO (s : State) : (s.endFault).FINFO = 0#32 := rfl
@[simp] theorem State.endFault_FCMD (s : State) : (s.endFault).FCMD = 0#32 := rfl
@[simp] theorem State.endFault_KLEN (s : State) : (s.endFault).KLEN = s.KLEN := rfl
@[simp] theorem State.endFault_TLEN (s : State) : (s.endFault).TLEN = s.TLEN := rfl
@[simp] theorem State.endFault_TCOLS (s : State) : (s.endFault).TCOLS = s.TCOLS := rfl
@[simp] theorem State.endFault_MA (s : State) : (s.endFault).MA = s.MA := rfl
@[simp] theorem State.endFault_MR (s : State) : (s.endFault).MR = s.MR := rfl
@[simp] theorem State.endFault_KSQ (s : State) : (s.endFault).KSQ = s.KSQ := rfl
@[simp] theorem State.endFault_KBUF (s : State) : (s.endFault).KBUF = s.KBUF := rfl
@[simp] theorem State.endFault_TBUF (s : State) : (s.endFault).TBUF = s.TBUF := rfl
@[simp] theorem State.endFault_OBUF (s : State) : (s.endFault).OBUF = s.OBUF := rfl
@[simp] theorem State.endFault_host (s : State) : (s.endFault).host = s.host := rfl
@[simp] theorem State.endFault_rdata (s : State) : (s.endFault).rdata = s.rdata := rfl

/-! ### `idle` -/

@[simp] theorem idle_x (s : State) : (idle s).x = s.x := rfl
@[simp] theorem idle_STATUS (s : State) : (idle s).STATUS = s.STATUS := rfl
@[simp] theorem idle_FCODE (s : State) : (idle s).FCODE = s.FCODE := rfl
@[simp] theorem idle_FINFO (s : State) : (idle s).FINFO = s.FINFO := rfl
@[simp] theorem idle_FCMD (s : State) : (idle s).FCMD = s.FCMD := rfl
@[simp] theorem idle_KLEN (s : State) : (idle s).KLEN = s.KLEN := rfl
@[simp] theorem idle_TLEN (s : State) : (idle s).TLEN = s.TLEN := rfl
@[simp] theorem idle_TCOLS (s : State) : (idle s).TCOLS = s.TCOLS := rfl
@[simp] theorem idle_MA (s : State) : (idle s).MA = s.MA := rfl
@[simp] theorem idle_MR (s : State) : (idle s).MR = s.MR := rfl
@[simp] theorem idle_KSQ (s : State) : (idle s).KSQ = s.KSQ := rfl
@[simp] theorem idle_KBUF (s : State) : (idle s).KBUF = s.KBUF := rfl
@[simp] theorem idle_TBUF (s : State) : (idle s).TBUF = s.TBUF := rfl
@[simp] theorem idle_OBUF (s : State) : (idle s).OBUF = s.OBUF := rfl
@[simp] theorem idle_host (s : State) : (idle s).host = s.host := rfl
@[simp] theorem idle_rdata (s : State) : (idle s).rdata = none := rfl

/-! ### `withCommand` -/

@[simp] theorem State.withCommand_x (s : State) (nbits w : Nat) : (s.withCommand nbits w).x = s.x := rfl
@[simp] theorem State.withCommand_STATUS (s : State) (nbits w : Nat) : (s.withCommand nbits w).STATUS = s.STATUS := rfl
@[simp] theorem State.withCommand_FCODE (s : State) (nbits w : Nat) : (s.withCommand nbits w).FCODE = s.FCODE := rfl
@[simp] theorem State.withCommand_FINFO (s : State) (nbits w : Nat) : (s.withCommand nbits w).FINFO = s.FINFO := rfl
@[simp] theorem State.withCommand_FCMD (s : State) (nbits w : Nat) : (s.withCommand nbits w).FCMD = s.FCMD := rfl
@[simp] theorem State.withCommand_KLEN (s : State) (nbits w : Nat) : (s.withCommand nbits w).KLEN = s.KLEN := rfl
@[simp] theorem State.withCommand_TLEN (s : State) (nbits w : Nat) : (s.withCommand nbits w).TLEN = s.TLEN := rfl
@[simp] theorem State.withCommand_TCOLS (s : State) (nbits w : Nat) : (s.withCommand nbits w).TCOLS = s.TCOLS := rfl
@[simp] theorem State.withCommand_MA (s : State) (nbits w : Nat) : (s.withCommand nbits w).MA = s.MA := rfl
@[simp] theorem State.withCommand_MR (s : State) (nbits w : Nat) : (s.withCommand nbits w).MR = s.MR := rfl
@[simp] theorem State.withCommand_KSQ (s : State) (nbits w : Nat) : (s.withCommand nbits w).KSQ = s.KSQ := rfl
@[simp] theorem State.withCommand_KBUF (s : State) (nbits w : Nat) : (s.withCommand nbits w).KBUF = s.KBUF := rfl
@[simp] theorem State.withCommand_TBUF (s : State) (nbits w : Nat) : (s.withCommand nbits w).TBUF = s.TBUF := rfl
@[simp] theorem State.withCommand_OBUF (s : State) (nbits w : Nat) : (s.withCommand nbits w).OBUF = s.OBUF := rfl
@[simp] theorem State.withCommand_host (s : State) (nbits w : Nat) : (s.withCommand nbits w).host = .write 0 (BitVec.ofNat 32 (w % 2 ^ nbits)) :: s.host := rfl
@[simp] theorem State.withCommand_rdata (s : State) (nbits w : Nat) : (s.withCommand nbits w).rdata = s.rdata := rfl

end Sys2Proof.Machine
end

