-- ==== Sys2Proof/Laws/Flags.lean ====
section
/-! SUPPORT. The two live bits of STATUS under each of its updates (spec/10_state.md R24). -/

namespace Sys2Proof.Machine

theorem statusSetF_bit (v : Word) (b : Nat) : (statusSetF v).getLsbD b = (v.getLsbD b || decide (b = 0)) := by
  unfold statusSetF
  rw [BitVec.getLsbD_or]
  rcases b with _ | b
  · simp
  · have : (0x1#32).getLsbD (b + 1) = false := by
      simp [BitVec.getLsbD, Nat.testBit_succ]
    simp [this]

theorem statusSetKV_bit (v : Word) (b : Nat) : (statusSetKV v).getLsbD b = (v.getLsbD b || decide (b = 1)) := by
  unfold statusSetKV
  rw [BitVec.getLsbD_or]
  rcases b with _ | _ | b
  · simp
  · simp
  · have : (0x2#32).getLsbD (b + 2) = false := by
      simp [BitVec.getLsbD, Nat.testBit_succ]
    simp [this]

theorem statusClearF_bit (v : Word) (b : Nat) : (statusClearF v).getLsbD b = (v.getLsbD b && decide (b ≠ 0)) := by
  unfold statusClearF
  rw [BitVec.getLsbD_and]
  by_cases h : b < 32
  · have : ∀ b < 32, (0xFFFFFFFE#32).getLsbD b = decide (b ≠ 0) := by decide
    rw [this b h]
  · simp [BitVec.getLsbD_of_ge v b (by omega)]

theorem statusClearKV_bit (v : Word) (b : Nat) : (statusClearKV v).getLsbD b = (v.getLsbD b && decide (b ≠ 1)) := by
  unfold statusClearKV
  rw [BitVec.getLsbD_and]
  by_cases h : b < 32
  · have : ∀ b < 32, (0xFFFFFFFD#32).getLsbD b = decide (b ≠ 1) := by decide
    rw [this b h]
  · simp [BitVec.getLsbD_of_ge v b (by omega)]

@[simp] theorem State.takeFault_F (s : State) (c : Cause) (info w : Word) : (s.takeFault c info w).F = true := by
  simp only [State.F, State.takeFault_STATUS, statusSetF_bit]; simp

@[simp] theorem State.takeFault_KV (s : State) (c : Cause) (info w : Word) : (s.takeFault c info w).KV = s.KV := by
  simp only [State.KV, State.takeFault_STATUS, statusSetF_bit]; simp

@[simp] theorem State.endFault_F (s : State) : (s.endFault).F = false := by
  simp only [State.F, State.endFault_STATUS, statusClearF_bit]; simp

@[simp] theorem State.endFault_KV (s : State) : (s.endFault).KV = s.KV := by
  simp only [State.KV, State.endFault_STATUS, statusClearF_bit]; simp

@[simp] theorem State.setReg_F (s : State) (r : Reg) (v : Word) : (s.setReg r v).F = s.F := rfl

@[simp] theorem State.setResult_F (s : State) (n : Nat) (q : IntMatrix) : (s.setResult n q).F = s.F := rfl

@[simp] theorem idle_F (s : State) : (idle s).F = s.F := rfl

@[simp] theorem State.setReg_KV (s : State) (r : Reg) (v : Word) : (s.setReg r v).KV = s.KV := rfl

@[simp] theorem State.setResult_KV (s : State) (n : Nat) (q : IntMatrix) : (s.setResult n q).KV = s.KV := rfl

@[simp] theorem idle_KV (s : State) : (idle s).KV = s.KV := rfl

end Sys2Proof.Machine
end

