-- ==== Sys2Proof/Laws/Memory.lean ====
section
/-! SUPPORT. The local memories: a read after a write, a read after a fill, the canonical form is kept by every
memory operation, and memories in canonical form that read alike are equal. -/

namespace Sys2Proof.Machine.Memory

variable {w : Nat}

theorem read_write (m : Memory w) (i j : Nat) (v : BitVec w)
    (h : m.Pairwise fun a b => a.1 < b.1) : read (write m i v) j = if j = i then v else read m j := by
  induction m with
  | nil => by_cases hv : v = 0#w <;> simp [write, read, hv]
  | cons a m ih =>
    obtain ⟨k, u⟩ := a
    have hk : ∀ p ∈ m, k < p.1 := fun p hp => (List.pairwise_cons.1 h).1 p hp
    have hz : ∀ n ≤ k, read m n = 0#w := by
      intro n hn
      clear ih h
      induction m with
      | nil => rfl
      | cons b m ihm =>
        have hb := hk b (by simp)
        simp only [read]
        rw [if_neg (by omega), ihm (fun p hp => hk p (by simp [hp]))]
    have ih := ih (List.pairwise_cons.1 h).2
    unfold write
    split
    · split
      · subst_vars
        simp only [read]
        by_cases hji : j = i
        · subst hji
          rw [if_neg (by omega), hz j (by omega)]; simp
        · simp [hji]
      · simp [read]
    · split
      · subst_vars
        split
        · subst_vars
          simp only [read]
          by_cases hji : j = k
          · subst hji; simp [hz j (by omega)]
          · simp [hji]
        · simp only [read]
          by_cases hji : j = k <;> simp [hji]
      · simp only [read, ih]
        by_cases hjk : j = k
        · subst hjk; rw [if_pos rfl, if_neg (by omega)]; simp
        · simp [hjk]

theorem keys_write (m : Memory w) (i : Nat) (v : BitVec w) : ∀ p ∈ write m i v, p.1 = i ∨ ∃ q ∈ m, q.1 = p.1 := by
  induction m with
  | nil => unfold write; split <;> simp
  | cons a m ih =>
    obtain ⟨k, u⟩ := a
    unfold write
    split
    · split
      · intro p hp; exact .inr ⟨p, hp, rfl⟩
      · intro p hp
        rcases List.mem_cons.1 hp with rfl | hp
        · exact .inl rfl
        · exact .inr ⟨p, hp, rfl⟩
    · split
      · split
        · intro p hp; exact .inr ⟨p, by simp [hp], rfl⟩
        · intro p hp
          rcases List.mem_cons.1 hp with rfl | hp
          · exact .inl rfl
          · exact .inr ⟨p, by simp [hp], rfl⟩
      · intro p hp
        rcases List.mem_cons.1 hp with rfl | hp
        · exact .inr ⟨(k, u), by simp, rfl⟩
        · rcases ih p hp with h | ⟨q, hq, h⟩
          · exact .inl h
          · exact .inr ⟨q, by simp [hq], h⟩

theorem sorted_write (m : Memory w) (i : Nat) (v : BitVec w) (h : m.Pairwise fun a b => a.1 < b.1) :
    (write m i v).Pairwise fun a b => a.1 < b.1 := by
  induction m with
  | nil => unfold write; split <;> simp
  | cons a m ih =>
    obtain ⟨k, u⟩ := a
    obtain ⟨hk, hm⟩ := List.pairwise_cons.1 h
    unfold write
    split
    · rename_i hlt
      split
      · exact h
      · refine List.pairwise_cons.2 ⟨fun p hp => ?_, h⟩
        rcases List.mem_cons.1 hp with rfl | hp
        · exact hlt
        · exact lt_trans hlt (hk p hp)
    · split
      · subst_vars
        split
        · exact hm
        · exact List.pairwise_cons.2 ⟨hk, hm⟩
      · refine List.pairwise_cons.2 ⟨fun p hp => ?_, ih hm⟩
        rcases keys_write m i v p hp with h | ⟨q, hq, h⟩
        · simp only; omega
        · simpa [h] using hk q hq

theorem values_write (m : Memory w) (i : Nat) (v : BitVec w) (h : ∀ p ∈ m, p.2 ≠ 0#w) :
    ∀ p ∈ write m i v, p.2 ≠ 0#w := by
  induction m with
  | nil => unfold write; split <;> simp_all
  | cons a m ih =>
    obtain ⟨k, u⟩ := a
    have hm : ∀ p ∈ m, p.2 ≠ 0#w := fun p hp => h p (by simp [hp])
    unfold write
    split
    · split
      · exact h
      · intro p hp
        rcases List.mem_cons.1 hp with rfl | hp
        · assumption
        · exact h p hp
    · split
      · split
        · exact hm
        · intro p hp
          rcases List.mem_cons.1 hp with rfl | hp
          · assumption
          · exact hm p hp
      · intro p hp
        rcases List.mem_cons.1 hp with rfl | hp
        · exact h (k, u) (by simp)
        · exact ih hm p hp

theorem wf_iff (cap : Nat) (m : Memory w) : wf cap m = true ↔
    (m.Pairwise fun a b => a.1 < b.1) ∧ ∀ p ∈ m, p.1 < cap ∧ p.2 ≠ 0#w := by
  simp [wf]

theorem wf_sorted {cap : Nat} {m : Memory w} (h : wf cap m = true) : m.Pairwise fun a b => a.1 < b.1 :=
  ((wf_iff cap m).1 h).1

theorem wf_nil (cap : Nat) : wf cap ([] : Memory w) = true := by simp [wf]

/-- A write inside the memory keeps the canonical form. -/
theorem wf_write {cap : Nat} {m : Memory w} {i : Nat} (v : BitVec w) (h : wf cap m = true) (hi : i < cap) :
    wf cap (write m i v) = true := by
  obtain ⟨hs, hp⟩ := (wf_iff cap m).1 h
  refine (wf_iff cap _).2 ⟨sorted_write m i v hs, fun p hpm => ⟨?_, values_write m i v (fun q hq => (hp q hq).2) p hpm⟩⟩
  rcases keys_write m i v p hpm with h | ⟨q, hq, h⟩
  · omega
  · have := (hp q hq).1; omega

theorem sorted_fill (n : Nat) (f : Nat → BitVec w) (m : Memory w) (h : m.Pairwise fun a b => a.1 < b.1) :
    (fill m n f).Pairwise fun a b => a.1 < b.1 := by
  induction n generalizing m with
  | zero => exact h
  | succ n ih => exact ih _ (sorted_write m n (f n) h)

/-- A read after a fill: a filled cell holds its new value, any other its old one. -/
theorem read_fill (n : Nat) (f : Nat → BitVec w) (m : Memory w) (j : Nat)
    (h : m.Pairwise fun a b => a.1 < b.1) : read (fill m n f) j = if j < n then f j else read m j := by
  induction n generalizing m with
  | zero => simp [fill]
  | succ n ih =>
    rw [fill, ih _ (sorted_write m n (f n) h), read_write _ _ _ _ h]
    by_cases h1 : j < n
    · rw [if_pos h1, if_pos (by omega)]
    · by_cases h2 : j = n
      · subst h2; simp
      · rw [if_neg h1, if_neg h2, if_neg (by omega)]

/-- A fill inside the memory keeps the canonical form. -/
theorem wf_fill {cap : Nat} (n : Nat) (f : Nat → BitVec w) (m : Memory w) (h : wf cap m = true) (hn : n ≤ cap) :
    wf cap (fill m n f) = true := by
  induction n generalizing m with
  | zero => exact h
  | succ n ih => exact ih _ (wf_write _ h (by omega)) (by omega)

theorem read_of_lt_keys (m : Memory w) (i : Nat) (h : ∀ p ∈ m, i < p.1) : read m i = 0#w := by
  induction m with
  | nil => rfl
  | cons a m ih =>
    have := h a (by simp)
    simp only [read]
    rw [if_neg (by omega), ih fun p hp => h p (by simp [hp])]

/-- A cell outside the memory is never listed, so it reads as 0. -/
theorem read_of_le {cap : Nat} {m : Memory w} (h : wf cap m = true) {i : Nat} (hi : cap ≤ i) : read m i = 0#w := by
  have hp := ((wf_iff cap m).1 h).2
  clear h
  induction m with
  | nil => rfl
  | cons a m ih =>
    have := (hp a (by simp)).1
    simp only [read]
    rw [if_neg (by omega), ih fun p hm => hp p (by simp [hm])]

/-- Two memories in canonical form that read alike are the same list. -/
theorem ext {cap : Nat} {m m' : Memory w} (h : wf cap m = true) (h' : wf cap m' = true)
    (hr : ∀ i, read m i = read m' i) : m = m' := by
  induction m generalizing m' with
  | nil =>
    cases m' with
    | nil => rfl
    | cons b m' =>
      have := hr b.1
      simp only [read, ↓reduceIte] at this
      exact absurd this.symm (((wf_iff cap _).1 h').2 b (by simp)).2
  | cons a m ih =>
    obtain ⟨hs, hp⟩ := (wf_iff cap _).1 h
    obtain ⟨ha, hs⟩ := List.pairwise_cons.1 hs
    have hm : wf cap m = true := (wf_iff cap m).2 ⟨hs, fun p q => hp p (by simp [q])⟩
    cases m' with
    | nil =>
      have := hr a.1
      simp only [read, ↓reduceIte] at this
      exact absurd this (hp a (by simp)).2
    | cons b m' =>
      obtain ⟨hs', hp'⟩ := (wf_iff cap _).1 h'
      obtain ⟨hb, hs'⟩ := List.pairwise_cons.1 hs'
      have hm' : wf cap m' = true := (wf_iff cap m').2 ⟨hs', fun p q => hp' p (by simp [q])⟩
      have hab : a.1 = b.1 := by
        rcases lt_trichotomy a.1 b.1 with hlt | heq | hgt
        · have := hr a.1
          simp only [read, ↓reduceIte] at this
          rw [if_neg (by omega), read_of_lt_keys m' a.1 fun p q => lt_trans hlt (hb p q)] at this
          exact absurd this (hp a (by simp)).2
        · exact heq
        · have := hr b.1
          simp only [read, ↓reduceIte] at this
          rw [if_neg (by omega), read_of_lt_keys m b.1 fun p q => lt_trans hgt (ha p q)] at this
          exact absurd this.symm (hp' b (by simp)).2
      have hv : a.2 = b.2 := by
        have := hr a.1
        simpa [read, hab] using this
      have htail : m = m' := ih hm hm' fun i => by
        have hi := hr i
        simp only [read, ← hab] at hi
        by_cases hia : i = a.1
        · subst hia
          rw [read_of_lt_keys m _ ha, read_of_lt_keys m' _ (by simpa [hab] using hb)]
        · simpa [hia] using hi
      rw [htail, Prod.ext hab hv]

end Sys2Proof.Machine.Memory
end

