-- ==== Sys2Proof/Laws/Ops.lean ====
section
/-! SUPPORT. What the shared operations can do: registers, integers and patterns, the end of a command, a write to
CMD, a transaction and a step. -/

namespace Sys2Proof.Machine

/-! ### Registers -/

theorem State.reg_setReg (s : State) (r q : Reg) (v : Word) :
    (s.setReg r v).reg q = if q = r then v else s.reg q := by
  unfold State.reg State.setReg
  simp only [Vector.getElem_set, Fin.ext_iff]
  by_cases h : r.val = q.val
  · simp [h]
  · rw [if_neg h, if_neg fun e => h e.symm]

@[simp] theorem State.reg_setReg_self (s : State) (r : Reg) (v : Word) : (s.setReg r v).reg r = v := by
  simp [State.reg_setReg]

theorem State.sint_setReg (s : State) (r q : Reg) (v : Word) :
    (s.setReg r v).sint q = if q = r then v.toInt else s.sint q := by
  unfold State.sint
  rw [State.reg_setReg]
  split <;> rfl

@[simp] theorem State.setReg_reg_self (s : State) (r : Reg) : s.setReg r (s.reg r) = s := by
  unfold State.setReg State.reg
  simp

theorem State.setReg_comm (s : State) {r q : Reg} (h : r ≠ q) (u v : Word) :
    (s.setReg r u).setReg q v = (s.setReg q v).setReg r u := by
  unfold State.setReg
  have : r.val ≠ q.val := fun e => h (Fin.ext e)
  simp only
  rw [Vector.set_comm _ _ this]

@[simp] theorem State.setReg_setReg (s : State) (r : Reg) (u v : Word) :
    (s.setReg r u).setReg r v = s.setReg r v := by
  unfold State.setReg
  simp

theorem State.sint_range (s : State) (r : Reg) : -2 ^ 31 ≤ s.sint r ∧ s.sint r ≤ 2 ^ 31 - 1 := by
  unfold State.sint
  have h1 := BitVec.le_two_mul_toInt (x := s.reg r)
  have h2 := BitVec.two_mul_toInt_lt (x := s.reg r)
  constructor <;> omega

/-! ### Integers and patterns -/

/-- sint(to32(z)) = z for every z in range (R6). -/
theorem toInt_to32 {z : Int} (h1 : -2 ^ 31 ≤ z) (h2 : z ≤ 2 ^ 31 - 1) : (to32 z).toInt = z := by
  unfold to32
  rw [BitVec.toInt_ofInt]
  simp [Int.bmod]
  omega

theorem to32_toInt (v : Word) : to32 v.toInt = v := by
  unfold to32
  exact BitVec.ofInt_toInt

theorem to32_natCast (n : Nat) : to32 (n : Int) = BitVec.ofNat 32 n := by
  unfold to32
  exact BitVec.ofInt_natCast 32 n

theorem fits32_iff (z : Int) : fits32 z = true ↔ -2 ^ 31 ≤ z ∧ z ≤ 2 ^ 31 - 1 := by
  simp [fits32]

theorem fmod_range (n : Int) {m : Int} (h : 1 ≤ m) : 0 ≤ fmod n m ∧ fmod n m < m :=
  ⟨Int.emod_nonneg n (by omega), Int.emod_lt_of_pos n (by omega)⟩

/-! ### The end of a command -/

@[simp] theorem State.conclude_commit (s t : State) (w : Word) : s.conclude w (.commit t) = .next t := rfl

@[simp] theorem State.conclude_raise (s : State) (w : Word) (c : Cause) (info : Word) :
    s.conclude w (.raise c info) = .next (s.takeFault c info w) := rfl

theorem State.takeFault_eq_recorded (s : State) (c : Cause) (info w : Word) :
    s.takeFault c info w = s.recorded c.code.toNat info w := by
  cases c <;> rfl

theorem Cause.code_range (c : Cause) : 1 ≤ c.code.toNat ∧ c.code.toNat ≤ 11 := by
  cases c <;> decide

/-- `exec` concludes what the command comes to under the command's own word. -/
theorem exec_eq_conclude (i : Instr) (s : State) : exec i s = s.conclude (encode i) (verdict i s) := by
  cases i <;> rfl

/-- The unit with the default parameters executes as `exec` says. -/
theorem execAt_default : execAt {} = exec := by
  funext i s
  exact (exec_eq_conclude i s).symm

/-- A command commits or takes one fault, whatever the parameters. -/
theorem execAt_cases {p : Config.Params} {i : Instr} {s t : State} (h : execAt p i s = .next t) :
    verdict i s p = .commit t ∨
      ∃ c info, verdict i s p = .raise c info ∧ t = s.takeFault c info (encode i) := by
  unfold execAt at h
  cases hv : verdict i s p with
  | commit u => rw [hv] at h; exact .inl (by cases h; rfl)
  | raise c info => rw [hv] at h; exact .inr ⟨c, info, rfl, by cases h; rfl⟩

/-- A command commits or takes one fault: what `exec` can answer. -/
theorem exec_cases {i : Instr} {s t : State} (h : exec i s = .next t) :
    verdict i s = .commit t ∨ ∃ c info, verdict i s = .raise c info ∧ t = s.takeFault c info (encode i) := by
  exact execAt_cases (p := {}) (execAt_default ▸ h)

/-! ### A write to CMD, and a step -/

theorem presentTo_gated (run : Instr → State → Host.Outcome State Fault Refusal) {w : Word} {s : State}
    (hF : s.F = true) (hw : w ≠ 0x01000000#32) : presentTo run w s = .next s := by
  simp [presentTo, hF, hw]

theorem presentTo_illegal (run : Instr → State → Host.Outcome State Fault Refusal) {w : Word} {s : State}
    {e : Illegal} (h : s.F = false ∨ w = 0x01000000#32) (hd : decode w = .error e) :
    presentTo run w s = .next (s.takeFault .illegalCommand 0#32 w) := by
  unfold presentTo
  rw [if_neg (by rcases h with h | h <;> simp [h]), hd]
  rfl

theorem presentTo_command (run : Instr → State → Host.Outcome State Fault Refusal) {w : Word} {s : State} {i : Instr}
    (h : s.F = false ∨ w = 0x01000000#32) (hd : decode w = .ok i) : presentTo run w s = run i s := by
  unfold presentTo
  rw [if_neg (by rcases h with h | h <;> simp [h]), hd]

theorem presentCommand_gated {w : Word} {s : State} (hF : s.F = true) (hw : w ≠ 0x01000000#32) :
    presentCommand w s = .next s := presentTo_gated exec hF hw

theorem presentCommand_illegal {w : Word} {s : State} {e : Illegal} (h : s.F = false ∨ w = 0x01000000#32)
    (hd : decode w = .error e) : presentCommand w s = .next (s.takeFault .illegalCommand 0#32 w) :=
  presentTo_illegal exec h hd

theorem presentCommand_command {w : Word} {s : State} {i : Instr} (h : s.F = false ∨ w = 0x01000000#32)
    (hd : decode w = .ok i) : presentCommand w s = exec i s := presentTo_command exec h hd

theorem takeNext_nil (perform : Transaction → State → Host.Outcome State Fault Refusal) {s : State}
    (h : s.host = []) : takeNext perform s = .next (idle s) := by
  simp [takeNext, h]

theorem takeNext_cons (perform : Transaction → State → Host.Outcome State Fault Refusal) {s : State}
    {t : Transaction} {ts : List Transaction} (h : s.host = t :: ts) :
    takeNext perform s = perform t (idle { s with host := ts }) := by
  simp [takeNext, h]

theorem step_nil {s : State} (h : s.host = []) : step s = .next (idle s) := takeNext_nil transact h

theorem step_cons {s : State} {t : Transaction} {ts : List Transaction} (h : s.host = t :: ts) :
    step s = transact t (idle { s with host := ts }) := takeNext_cons transact h

theorem transact_write_cmd (w : Word) (s : State) : transact (.write 0 w) s = presentCommand w s := rfl

end Sys2Proof.Machine
end

