-- ==== Sys2Proof/Laws/Encoding.lean ====
section
/-! SUPPORT. The command word as a number, its fields, and what the match and mask test says of a word's fields
(spec/30_encoding.md R61, R63). -/

namespace Sys2Proof

theorem assemble_toNat {opcode rd rs1 rs2 n f : Nat} (ho : opcode < 256) (h1 : rd < 8) (h2 : rs1 < 8) (h3 : rs2 < 8)
    (h4 : n < 4) (h5 : f < 2) : (assemble opcode rd rs1 rs2 n f).toNat =
      opcode * 2 ^ 24 + rd * 2 ^ 21 + rs1 * 2 ^ 18 + rs2 * 2 ^ 15 + n * 2 ^ 13 + f * 2 ^ 12 := by
  unfold assemble
  rw [BitVec.toNat_ofNat, Nat.mod_eq_of_lt (by omega)]

theorem extract_toNat (w : Word) (lo len : Nat) : (w.extractLsb' lo len).toNat = w.toNat / 2 ^ lo % 2 ^ len := by
  rw [BitVec.extractLsb'_toNat, Nat.shiftRight_eq_div_pow]

section
variable {opcode rd rs1 rs2 n f : Nat} (ho : opcode < 256) (h1 : rd < 8) (h2 : rs1 < 8) (h3 : rs2 < 8)
  (h4 : n < 4) (h5 : f < 2)
include ho h1 h2 h3 h4 h5

theorem rdField_assemble : (rdField (assemble opcode rd rs1 rs2 n f)).val = rd := by
  unfold rdField
  rw [BitVec.val_toFin, extract_toNat, assemble_toNat ho h1 h2 h3 h4 h5]
  omega

theorem rs1Field_assemble : (rs1Field (assemble opcode rd rs1 rs2 n f)).val = rs1 := by
  unfold rs1Field
  rw [BitVec.val_toFin, extract_toNat, assemble_toNat ho h1 h2 h3 h4 h5]
  omega

theorem rs2Field_assemble : (rs2Field (assemble opcode rd rs1 rs2 n f)).val = rs2 := by
  unfold rs2Field
  rw [BitVec.val_toFin, extract_toNat, assemble_toNat ho h1 h2 h3 h4 h5]
  omega

theorem nField_assemble : (nField (assemble opcode rd rs1 rs2 n f)).val = n := by
  unfold nField
  rw [BitVec.val_toFin, extract_toNat, assemble_toNat ho h1 h2 h3 h4 h5]
  omega

theorem fField_assemble : fField (assemble opcode rd rs1 rs2 n f) = decide (f = 1) := by
  unfold fField
  rw [BitVec.getLsbD, Nat.testBit_eq_decide_div_mod_eq, assemble_toNat ho h1 h2 h3 h4 h5]
  congr 1
  apply propext
  omega

end

/-- A word is the sum of its fields (R61). -/
theorem toNat_eq_fields (w : Word) : w.toNat = (w.extractLsb' 24 8).toNat * 2 ^ 24 + (rdField w).val * 2 ^ 21 +
    (rs1Field w).val * 2 ^ 18 + (rs2Field w).val * 2 ^ 15 + (nField w).val * 2 ^ 13 +
    (w.extractLsb' 12 1).toNat * 2 ^ 12 + (w.extractLsb' 0 12).toNat := by
  unfold rdField rs1Field rs2Field nField
  simp only [BitVec.val_toFin, extract_toNat]
  have := w.isLt
  omega

theorem fField_eq (w : Word) : fField w = decide ((w.extractLsb' 12 1).toNat = 1) := by
  unfold fField
  rw [BitVec.getLsbD, Nat.testBit_eq_decide_div_mod_eq, extract_toNat, pow_one]

/-- Every field of a word that passes a mask test agrees with the pattern under the mask. -/
theorem extract_of_masked {w m p : Word} (h : w &&& m = p) (lo len : Nat) :
    w.extractLsb' lo len &&& m.extractLsb' lo len = p.extractLsb' lo len := by
  rw [← BitVec.extractLsb'_and, h]

/-- A field that a mask covers whole has the pattern's value in every word that passes the mask test. -/
theorem masked_field {w m p : Word} (h : w &&& m = p) (lo len : Nat)
    (hm : m.extractLsb' lo len = BitVec.allOnes len) : (w.extractLsb' lo len).toNat = (p.extractLsb' lo len).toNat := by
  rw [← extract_of_masked h lo len, hm, BitVec.and_allOnes]

/-- The `f` bit as a number. -/
theorem fBit_eq (w : Word) : (w.extractLsb' 12 1).toNat = if fField w then 1 else 0 := by
  rw [fField_eq]
  have : (w.extractLsb' 12 1).toNat < 2 := (w.extractLsb' 12 1).isLt
  simp only [decide_eq_true_eq]
  split <;> omega

/-- Assembling the fields of a word with bits 11:0 zero gives the word back (R63). -/
theorem assemble_fields {w : Word} {o rd rs1 rs2 n f : Nat} (h0 : (w.extractLsb' 24 8).toNat = o)
    (h1 : (w.extractLsb' 21 3).toNat = rd) (h2 : (w.extractLsb' 18 3).toNat = rs1)
    (h3 : (w.extractLsb' 15 3).toNat = rs2) (h4 : (w.extractLsb' 13 2).toNat = n)
    (h5 : (w.extractLsb' 12 1).toNat = f) (hz : (w.extractLsb' 0 12).toNat = 0) : assemble o rd rs1 rs2 n f = w := by
  have hs := toNat_eq_fields w
  subst h0 h1 h2 h3 h4 h5
  apply BitVec.eq_of_toNat_eq
  rw [assemble_toNat (w.extractLsb' 24 8).isLt (w.extractLsb' 21 3).isLt (w.extractLsb' 18 3).isLt
    (w.extractLsb' 15 3).isLt (w.extractLsb' 13 2).isLt (w.extractLsb' 12 1).isLt, hs, hz, Nat.add_zero]
  rfl

end Sys2Proof
end

