-- ==== Sys2Proof/Laws/Transposition.lean ====
section
/-! SUPPORT. The grid of the transposition: run lengths, column starts, and that π and π⁻¹ undo each other
(spec/43_transposition.md R120 to R122). -/

namespace Sys2Proof.Machine

/-! ### Run lengths and starts -/

/-- The number of rows by cases: L/k when k divides L, one more otherwise (R120). -/
theorem numRows_eq (L : Nat) {k : Nat} (hk : 1 ≤ k) :
    numRows L k = if L % k = 0 then L / k else L / k + 1 := by
  unfold numRows
  have h := Nat.div_add_mod L k
  have hlt := Nat.mod_lt L hk
  have hc : (L / k + 1) * k = k * (L / k) + k := by ring
  have hc' : L / k * k = k * (L / k) := Nat.mul_comm _ _
  split <;> rw [Nat.div_eq_iff (by omega)] <;> constructor <;> omega

/-- Run length of a column, with `d = L / k` full rows: one more in the columns before `L mod k` (R120). -/
theorem runLen_eq (L : Nat) {k : Nat} (hk : 1 ≤ k) (j : Nat) :
    runLen L k j = if j < L % k then L / k + 1 else L / k := by
  unfold runLen
  rw [numRows_eq L hk]
  generalize L % k = q, L / k = d
  split_ifs <;> omega

theorem startOf_eq (L : Nat) {k : Nat} (hk : 1 ≤ k) (c : Nat) :
    startOf L k c = c * (L / k) + min c (L % k) := by
  unfold startOf
  rw [numRows_eq L hk]
  split_ifs with h
  · simp [h]
  · rw [Nat.add_sub_cancel, Nat.mul_add, Nat.mul_one]
    have : c = min c (L % k) + (c - L % k) := by omega
    calc min c (L % k) * (L / k) + min c (L % k) + (c - L % k) * (L / k)
        = (min c (L % k) + (c - L % k)) * (L / k) + min c (L % k) := by ring
      _ = c * (L / k) + min c (L % k) := by rw [← this]

@[simp] theorem startOf_zero (L : Nat) {k : Nat} (hk : 1 ≤ k) : startOf L k 0 = 0 := by
  simp [startOf_eq L hk]

/-- Each column starts where the one before it ends (R121). -/
theorem startOf_succ (L : Nat) {k : Nat} (hk : 1 ≤ k) (c : Nat) :
    startOf L k (c + 1) = startOf L k c + runLen L k c := by
  rw [startOf_eq L hk, startOf_eq L hk, runLen_eq L hk]
  have : (c + 1) * (L / k) = c * (L / k) + L / k := by ring
  split_ifs <;> omega

theorem startOf_mono (L : Nat) {k : Nat} (hk : 1 ≤ k) {c c' : Nat} (h : c ≤ c') :
    startOf L k c ≤ startOf L k c' := by
  induction c', h using Nat.le_induction with
  | base => exact le_refl _
  | succ n _ ih => rw [startOf_succ L hk]; omega

/-- The columns hold the whole text. -/
theorem startOf_cols (L : Nat) {k : Nat} (hk : 1 ≤ k) : startOf L k k = L := by
  rw [startOf_eq L hk, Nat.min_eq_right (Nat.le_of_lt (Nat.mod_lt L hk)), Nat.div_add_mod]

theorem le_startOf (L : Nat) {k : Nat} (hk : 1 ≤ k) : L ≤ startOf L k L := by
  by_cases h : k ≤ L
  · calc L = startOf L k k := (startOf_cols L hk).symm
      _ ≤ startOf L k L := startOf_mono L hk h
  · rw [startOf_eq L hk, Nat.mod_eq_of_lt (by omega)]
    omega

/-- "The cell at row r, column c exists exactly when r·k + c < L" (R120). -/
theorem lt_runLen_iff (L : Nat) {k : Nat} (hk : 1 ≤ k) {c : Nat} (hc : c < k) (r : Nat) :
    r < runLen L k c ↔ r * k + c < L := by
  rw [runLen_eq L hk]
  have h := Nat.div_add_mod L k
  have hlt := Nat.mod_lt L hk
  constructor
  · intro hr
    split_ifs at hr with hq
    · have : r * k ≤ k * (L / k) := by rw [Nat.mul_comm]; exact Nat.mul_le_mul_left k (by omega)
      omega
    · have : (r + 1) * k ≤ k * (L / k) := by rw [Nat.mul_comm]; exact Nat.mul_le_mul_left k (by omega)
      have : (r + 1) * k = r * k + k := by ring
      omega
  · intro hr
    split_ifs with hq
    · by_contra hge
      have : k * (L / k + 1) ≤ r * k := by rw [Nat.mul_comm r]; exact Nat.mul_le_mul_left k (by omega)
      have : k * (L / k + 1) = k * (L / k) + k := by ring
      omega
    · by_contra hge
      have : k * (L / k) ≤ r * k := by rw [Nat.mul_comm r]; exact Nat.mul_le_mul_left k (by omega)
      omega

/-- A place in a column is determined by its output position. -/
theorem start_unique (L : Nat) {k : Nat} (hk : 1 ≤ k) {c c' r r' : Nat} (h : startOf L k c + r = startOf L k c' + r')
    (hr : r < runLen L k c) (hr' : r' < runLen L k c') : c = c' ∧ r = r' := by
  have e := startOf_succ L hk c
  have e' := startOf_succ L hk c'
  rcases Nat.lt_trichotomy c c' with hc | hc | hc
  · have := startOf_mono L hk (show c + 1 ≤ c' by omega); omega
  · subst hc; omega
  · have := startOf_mono L hk (show c' + 1 ≤ c by omega); omega

/-! ### Locating an output position -/

theorem locate_spec (L : Nat) {k : Nat} (hk : 1 ≤ k) (fuel c o : Nat)
    (h : startOf L k c + o < startOf L k (c + fuel)) :
    (locate L k fuel c o).2 < runLen L k (locate L k fuel c o).1 ∧
      startOf L k (locate L k fuel c o).1 + (locate L k fuel c o).2 = startOf L k c + o := by
  induction fuel generalizing c o with
  | zero => simp at h
  | succ fuel ih =>
    unfold locate
    split
    · exact ⟨‹_›, rfl⟩
    · have e := startOf_succ L hk c
      have := ih (c + 1) (o - runLen L k c) (by rw [show c + 1 + fuel = c + (fuel + 1) by omega]; omega)
      refine ⟨this.1, this.2.trans ?_⟩
      omega

/-- The o-th visited cell: in column c < k, r cells down, with start(c) + r = o (R121). -/
theorem transposeIndex_spec (L : Nat) {k : Nat} (hk : 1 ≤ k) {o : Nat} (ho : o < L) :
    ∃ c r, c < k ∧ r < runLen L k c ∧ startOf L k c + r = o ∧ transposeIndex L k o = r * k + c := by
  have hs := locate_spec L hk L 0 o (by
    rw [startOf_zero L hk, Nat.zero_add, Nat.zero_add]
    exact Nat.lt_of_lt_of_le ho (le_startOf L hk))
  rw [startOf_zero L hk, Nat.zero_add] at hs
  refine ⟨(locate L k L 0 o).1, (locate L k L 0 o).2, ?_, hs.1, hs.2, rfl⟩
  by_contra hc
  have := startOf_mono L hk (show k ≤ (locate L k L 0 o).1 by omega)
  rw [startOf_cols L hk] at this
  omega

theorem transposeIndex_lt (L : Nat) {k : Nat} (hk : 1 ≤ k) {o : Nat} (ho : o < L) : transposeIndex L k o < L := by
  obtain ⟨c, r, hc, hr, _, e⟩ := transposeIndex_spec L hk ho
  rw [e]
  exact (lt_runLen_iff L hk hc r).1 hr

theorem row_lt (L : Nat) {k : Nat} (hk : 1 ≤ k) {i : Nat} (hi : i < L) : i / k < runLen L k (i % k) := by
  rw [lt_runLen_iff L hk (Nat.mod_lt i hk), Nat.mul_comm, Nat.div_add_mod]
  exact hi

theorem inverseIndex_lt (L : Nat) {k : Nat} (hk : 1 ≤ k) {i : Nat} (hi : i < L) : inverseIndex L k i < L := by
  unfold inverseIndex
  have h := row_lt L hk hi
  have e := startOf_succ L hk (i % k)
  have m := startOf_mono L hk (show i % k + 1 ≤ k from Nat.mod_lt i hk)
  rw [startOf_cols L hk] at m
  omega

/-- π(π⁻¹(i)) = i (R122). -/
theorem transposeIndex_inverseIndex (L : Nat) {k : Nat} (hk : 1 ≤ k) {i : Nat} (hi : i < L) :
    transposeIndex L k (inverseIndex L k i) = i := by
  obtain ⟨c, r, _, hr, hs, e⟩ := transposeIndex_spec L hk (inverseIndex_lt L hk hi)
  obtain ⟨rfl, rfl⟩ := start_unique L hk hs hr (row_lt L hk hi)
  rw [e, Nat.mul_comm, Nat.div_add_mod]

/-- π⁻¹(π(o)) = o (R122). -/
theorem inverseIndex_transposeIndex (L : Nat) {k : Nat} (hk : 1 ≤ k) {o : Nat} (ho : o < L) :
    inverseIndex L k (transposeIndex L k o) = o := by
  obtain ⟨c, r, hc, _, hs, e⟩ := transposeIndex_spec L hk ho
  unfold inverseIndex
  rw [e, Nat.mul_comm r, Nat.mul_add_mod, Nat.mod_eq_of_lt hc, Nat.mul_add_div (by omega), Nat.div_eq_of_lt hc,
    Nat.add_zero]
  exact hs

/-! ### The common checks -/

theorem State.gridFault_eq_none_iff (s : State) (p : Config.Params := {}) :
    s.gridFault p = none ↔ s.tlen ≤ p.tcap ∧ 1 ≤ s.tcols := by
  unfold State.gridFault
  split_ifs with h1 h2
  · simp; omega
  · simp [h2]
  · simp; omega

theorem State.gridFault_length {s : State} {p : Config.Params} (h : p.tcap < s.tlen) :
    s.gridFault p = some (.badLength, s.TLEN) := by
  unfold State.gridFault
  rw [if_pos h]

theorem State.gridFault_columns {s : State} {p : Config.Params} (h : s.tlen ≤ p.tcap) (hk : s.tcols = 0) :
    s.gridFault p = some (.badColumns, 0#32) := by
  unfold State.gridFault
  rw [if_neg (Nat.not_lt.2 h), if_pos hk]

end Sys2Proof.Machine
end

