-- ==== Sys2Proof/Laws/Frame.lean ====
section
/-! SUPPORT. Everything a command that commits can do, and everything a write to CMD can do, said once. -/

namespace Sys2Proof.Machine

/-- A command that commits clears the fault, or writes its destination registers, or MR, or the key square with its
valid bit, or OBUF; and nothing else. -/
theorem commit_cases {p : Config.Params} {i : Instr} {s t : State} (h : verdict i s p = .commit t) :
    (i = .clrf ∧ t = s.endFault) ∨
    (∃ x, t = { s with x := x } ∧ ∀ r, r ∉ destinations i → t.reg r = s.reg r) ∨
    (∃ n q, 2 ≤ n ∧ n ≤ 3 ∧ ((∃ f r, i = .madj f r ∧ f.val = n) ∨ ∃ f, i = .minv f ∧ f.val = n) ∧
      t = s.setResult n q) ∨
    (i = .pfbuild ∧ s.klen ≤ p.kcap ∧ t = { s with
      KSQ := Memory.fill s.KSQ Config.squareCells fun k => BitVec.ofNat 5 ((buildSquare s.key).getD k 0)
      STATUS := statusSetKV s.STATUS }) ∨
    ((i = .tpose ∨ i = .tinv) ∧ s.tlen ≤ p.tcap ∧ ∃ f, t = { s with OBUF := Memory.fill s.OBUF s.tlen f }) := by
  have one : ∀ (rd : Reg) (v : Word), t = s.setReg rd v →
      ∃ x, t = { s with x := x } ∧ ∀ r, r ∉ [rd] → t.reg r = s.reg r := by
    rintro rd v rfl
    exact ⟨_, rfl, fun r hr => by rw [State.reg_setReg, if_neg (by simpa using hr)]⟩
  have two : ∀ (rd rd2 : Reg) (u v : Word), t = (s.setReg rd u).setReg rd2 v →
      ∃ x, t = { s with x := x } ∧ ∀ r, r ∉ [rd, rd2] → t.reg r = s.reg r := by
    rintro rd rd2 u v rfl
    refine ⟨_, rfl, fun r hr => ?_⟩
    simp only [List.mem_cons, List.not_mem_nil, or_false, not_or] at hr
    rw [State.reg_setReg, if_neg hr.2, State.reg_setReg, if_neg hr.1]
  cases i with
  | clrf => cases h; exact .inl ⟨rfl, rfl⟩
  | mod rd rs1 rs2 =>
    refine .inr (.inl ?_)
    simp only [verdict, modVerdict] at h
    split at h <;> cases h
    exact one _ _ rfl
  | gcd rd rs1 rs2 =>
    refine .inr (.inl ?_)
    simp only [verdict, gcdVerdict] at h
    split at h
    · cases h
    · split at h <;> cases h
      exact one _ _ rfl
  | modinv rd rs1 rs2 =>
    refine .inr (.inl ?_)
    simp only [verdict, modinvVerdict] at h
    split at h
    · cases h
    · split at h <;> cases h
      exact one _ _ rfl
  | mdet rd n r =>
    refine .inr (.inl ?_)
    simp only [verdict, mdetVerdict] at h
    split at h
    · cases h
    · cases r
      · simp only at h
        split at h <;> cases h
        exact one _ _ rfl
      · cases h
        exact one _ _ rfl
  | madj n r =>
    refine .inr (.inr (.inl ?_))
    have hn := n.isLt
    simp only [verdict, madjVerdict] at h
    split at h
    · cases h
    · cases r
      · simp only at h
        split at h <;> cases h
        exact ⟨n.val, _, by omega, by omega, .inl ⟨n, _, rfl, rfl⟩, rfl⟩
      · cases h
        exact ⟨n.val, _, by omega, by omega, .inl ⟨n, _, rfl, rfl⟩, rfl⟩
  | minv n =>
    refine .inr (.inr (.inl ?_))
    have hn := n.isLt
    simp only [verdict, minvVerdict] at h
    split at h
    · cases h
    · split at h <;> cases h
      exact ⟨n.val, _, by omega, by omega, .inr ⟨n, rfl, rfl⟩, rfl⟩
  | pfbuild =>
    refine .inr (.inr (.inr (.inl ?_)))
    simp only [verdict, pfbuildVerdict] at h
    split at h <;> cases h
    exact ⟨rfl, Nat.not_lt.mp ‹_›, rfl⟩
  | pfpos rd rd2 rs1 =>
    refine .inr (.inl ?_)
    simp only [verdict, pfposVerdict] at h
    split at h
    · cases h
    · split at h
      · cases h
      · split at h <;> cases h
        exact two _ _ _ _ rfl
  | pfpair rd rd2 dir =>
    refine .inr (.inl ?_)
    simp only [verdict, pfpairVerdict] at h
    split at h
    · cases h
    · split at h
      · cases h
      · split at h <;> cases h
        exact two _ _ _ _ rfl
  | tpidx rd rs1 inv =>
    refine .inr (.inl ?_)
    simp only [verdict, tpidxVerdict] at h
    split at h
    · cases h
    · split at h <;> cases h
      exact one _ _ rfl
  | tpose =>
    refine .inr (.inr (.inr (.inr ?_)))
    simp only [verdict, tposeVerdict] at h
    split at h <;> cases h
    exact ⟨.inl rfl, ((State.gridFault_eq_none_iff s p).mp ‹_›).1, _, rfl⟩
  | tinv =>
    refine .inr (.inr (.inr (.inr ?_)))
    simp only [verdict, tinvVerdict] at h
    split at h <;> cases h
    exact ⟨.inr rfl, ((State.gridFault_eq_none_iff s p).mp ‹_›).1, _, rfl⟩

/-- A write to CMD is discarded, or takes IllegalCommand, or executes the command it decodes to. -/
theorem presentTo_cases {run : Instr → State → Host.Outcome State Fault Refusal} {w : Word} {s t : State}
    (h : presentTo run w s = .next t) :
    (s.F = true ∧ w ≠ 0x01000000#32 ∧ t = s) ∨
    (s.F = false ∧ (∃ e, decode w = .error e) ∧ t = s.takeFault .illegalCommand 0#32 w) ∨
    ((s.F = false ∨ w = 0x01000000#32) ∧ ∃ i, decode w = .ok i ∧ run i s = .next t) := by
  by_cases hg : s.F = true ∧ w ≠ 0x01000000#32
  · rw [presentTo_gated run hg.1 hg.2] at h
    cases h
    exact .inl ⟨hg.1, hg.2, rfl⟩
  · have ho : s.F = false ∨ w = 0x01000000#32 := by
      cases hF : s.F
      · exact .inl rfl
      · exact .inr (by_contra fun hw => hg ⟨hF, hw⟩)
    cases hd : decode w with
    | error e =>
      rw [presentTo_illegal run ho hd] at h
      cases h
      refine .inr (.inl ⟨?_, ⟨e, rfl⟩, rfl⟩)
      rcases ho with ho | rfl
      · exact ho
      · rw [show decode 0x01000000#32 = .ok .clrf by decide] at hd
        cases hd
    | ok i =>
      rw [presentTo_command run ho hd] at h
      exact .inr (.inr ⟨ho, i, rfl, h⟩)

/-- `presentTo_cases` of the unit with the default parameters. -/
theorem presentCommand_cases {w : Word} {s t : State} (h : presentCommand w s = .next t) :
    (s.F = true ∧ w ≠ 0x01000000#32 ∧ t = s) ∨
    (s.F = false ∧ (∃ e, decode w = .error e) ∧ t = s.takeFault .illegalCommand 0#32 w) ∨
    ((s.F = false ∨ w = 0x01000000#32) ∧ ∃ i, decode w = .ok i ∧ exec i s = .next t) := presentTo_cases h

end Sys2Proof.Machine
end

