-- ==== Sys2Proof/Laws/Playfair.lean ====
section
/-! SUPPORT. The key square: what the builder makes of a key (spec/42_playfair.md R107), that it holds each of the 25
letters once (R108), and what a position is (R109). -/

namespace Sys2Proof.Machine

/-! ### The builder -/

theorem mem_alphabet {v : Nat} : v ∈ alphabet ↔ v < 26 ∧ v ≠ 9 := by
  simp [alphabet]

/-- A normalised character is a letter of the alphabet. -/
theorem norm_mem {b : Byte} {v : Nat} (h : norm b = some v) : v ∈ alphabet := by
  rw [mem_alphabet]
  have key : ∀ n : Nat, (if 0x41 ≤ n ∧ n ≤ 0x5A then some (n - 0x41) else none) = some v → n ≠ 0x4A →
      v < 26 ∧ v ≠ 9 := by
    intro n hn hj
    split at hn
    · simp only [Option.some.injEq] at hn; omega
    · cases hn
  refine key _ h ?_
  split_ifs <;> omega

/-- Placing a list of letters after `acc` appends those not in `acc`, each at its first occurrence. -/
theorem foldl_place (l acc : List Nat) :
    l.foldl place acc = acc ++ (l.filter fun v => decide (v ∉ acc)).eraseDups := by
  induction l generalizing acc with
  | nil => simp
  | cons a l ih =>
    rw [List.foldl_cons, ih]
    by_cases h : a ∈ acc
    · simp [place, h]
    · rw [List.filter_cons_of_pos (by simpa using h), List.eraseDups_cons]
      simp only [place, if_neg h, List.append_assoc, List.singleton_append, List.filter_filter]
      congr 3
      apply List.filter_congr
      intro x _
      rw [Bool.beq_eq_decide_eq]
      simp [and_comm]

theorem eraseDups_of_nodup {l : List Nat} (h : l.Nodup) : l.eraseDups = l := by
  induction l with
  | nil => simp
  | cons a l ih =>
    obtain ⟨ha, hl⟩ := List.nodup_cons.1 h
    rw [List.eraseDups_cons, List.filter_eq_self.2, ih hl]
    intro x hx
    simp only [Bool.not_eq_true', beq_eq_false_iff_ne]
    exact fun e => ha (e ▸ hx)

theorem nodup_alphabet : alphabet.Nodup := List.Nodup.filter _ List.nodup_range

theorem mem_eraseDups {l : List Nat} {v : Nat} : v ∈ l.eraseDups ↔ v ∈ l := by
  simp

theorem nodup_eraseDups (l : List Nat) : l.eraseDups.Nodup := by
  induction hn : l.length using Nat.strong_induction_on generalizing l with
  | _ n ih =>
    cases l with
    | nil => simp
    | cons a l =>
      rw [List.eraseDups_cons, List.nodup_cons]
      refine ⟨by simp, ih _ ?_ _ rfl⟩
      have := List.length_filter_le (fun b => !b == a) l
      simp at hn
      omega

/-- The key square: the letters of the key at their first occurrence, then the unused letters of the alphabet. -/
theorem buildSquare_eq (key : List Byte) : buildSquare key =
    (key.filterMap norm).eraseDups ++ alphabet.filter fun v => decide (v ∉ key.filterMap norm) := by
  unfold buildSquare
  rw [foldl_place, foldl_place]
  simp only [List.not_mem_nil, not_false_eq_true, decide_true, List.filter_true, List.nil_append, mem_eraseDups]
  rw [eraseDups_of_nodup (nodup_alphabet.filter _)]

/-- The key square is a permutation of the alphabet (R108). -/
theorem buildSquare_perm (key : List Byte) : (buildSquare key).Perm alphabet := by
  rw [List.perm_ext_iff_of_nodup _ nodup_alphabet]
  · intro v
    rw [buildSquare_eq]
    simp only [List.mem_append, mem_eraseDups, List.mem_filter, decide_eq_true_eq]
    constructor
    · rintro (h | h)
      · obtain ⟨b, _, hb⟩ := List.mem_filterMap.1 h
        exact norm_mem hb
      · exact h.1
    · intro h
      by_cases hv : v ∈ key.filterMap norm
      · exact .inl hv
      · exact .inr ⟨h, hv⟩
  · rw [buildSquare_eq, List.nodup_append]
    refine ⟨nodup_eraseDups _, nodup_alphabet.filter _, ?_⟩
    intro a ha b hb e
    subst e
    simp only [List.mem_filter, decide_eq_true_eq] at hb
    exact hb.2 (mem_eraseDups.1 ha)

theorem buildSquare_length (key : List Byte) : (buildSquare key).length = 25 := by
  rw [(buildSquare_perm key).length_eq]
  decide

theorem buildSquare_lt (key : List Byte) (k : Nat) : (buildSquare key).getD k 0 < 26 := by
  by_cases h : k < (buildSquare key).length
  · rw [List.getD_eq_getElem _ _ h]
    exact (mem_alphabet.1 ((buildSquare_perm key).mem_iff.1 (List.getElem_mem h))).1
  · rw [List.getD_eq_default _ _ (by omega)]
    omega

/-! ### The square in KSQ -/

theorem State.squareList_length (s : State) : s.squareList.length = 25 := by simp [State.squareList]

theorem State.squareList_getElem (s : State) {k : Nat} (h : k < 25) :
    s.squareList[k]'(by rw [s.squareList_length]; exact h) = (Memory.read s.KSQ k).toNat := by
  simp [State.squareList]

/-- On a valid square a value is in some cell exactly when it is a letter of the alphabet (R108). -/
theorem State.square_mem {s : State} (h : s.squareList.Perm alphabet) (v : Nat) :
    (∃ k < 25, (Memory.read s.KSQ k).toNat = v) ↔ v ∈ alphabet := by
  rw [← h.mem_iff]
  simp [State.squareList]

/-- On a valid square no letter stands in two cells (R108). -/
theorem State.square_inj {s : State} (h : s.squareList.Perm alphabet) {k k' : Nat} (hk : k < 25) (hk' : k' < 25)
    (e : (Memory.read s.KSQ k).toNat = (Memory.read s.KSQ k').toNat) : k = k' := by
  have hn : s.squareList.Nodup := h.nodup_iff.2 nodup_alphabet
  rw [← s.squareList_getElem hk, ← s.squareList_getElem hk'] at e
  exact (List.Nodup.getElem_inj_iff hn).1 e

/-! ### Positions -/

/-- `pos(v)` is the row and column of the least cell that holds `v` (R109). -/
theorem State.pos_eq_some_iff (s : State) (v : Int) (r c : Nat) :
    s.pos v = some (r, c) ↔ s.HoldsAt v r c := by
  unfold State.pos State.HoldsAt
  constructor
  · intro h
    simp only [Option.map_eq_some_iff, Prod.mk.injEq] at h
    obtain ⟨k, hk, rfl, rfl⟩ := h
    rw [List.find?_range_eq_some] at hk
    obtain ⟨h1, h2, h3⟩ := hk
    have e : 5 * (k / 5) + k % 5 = k := Nat.div_add_mod k 5
    have h2 : k < 25 := List.mem_range.1 h2
    refine ⟨by omega, by omega, by simpa [e] using h1, fun j hj => ?_⟩
    have := h3 j (by omega)
    simpa using this
  · rintro ⟨hr, hc, h1, h2⟩
    simp only [Option.map_eq_some_iff, Prod.mk.injEq]
    refine ⟨5 * r + c, ?_, by omega, by omega⟩
    rw [List.find?_range_eq_some]
    refine ⟨by simpa using h1, List.mem_range.2 (show _ < 25 by omega), fun j hj => ?_⟩
    simpa using h2 j hj

theorem State.pos_eq_none_iff (s : State) (v : Int) : s.pos v = none ↔ s.Absent v := by
  unfold State.pos State.Absent
  simp [List.find?_eq_none]

end Sys2Proof.Machine
end

