-- ==== Sys2Proof/Laws/Invariant.lean ====
section
/-! SUPPORT. What the single updates of the state do to the invariant, and which faults a command raises. -/

namespace Sys2Proof.Machine

/-- A well-formed command never raises IllegalCommand: that fault is the decoder's (spec/60_exceptions.md R140). -/
theorem verdict_ne_illegal {p : Config.Params} {i : Instr} {s : State} {info : Word} (wf : i.wellFormed = true) :
    verdict i s p ≠ .raise .illegalCommand info := by
  intro hv
  cases i with
  | clrf => cases hv
  | mod rd rs1 rs2 => simp only [verdict, modVerdict] at hv; split at hv <;> cases hv
  | gcd rd rs1 rs2 =>
    simp only [verdict, gcdVerdict] at hv
    repeat' split at hv
    all_goals cases hv
  | modinv rd rs1 rs2 =>
    simp only [verdict, modinvVerdict] at hv
    repeat' split at hv
    all_goals cases hv
  | mdet rd n r =>
    simp only [verdict, mdetVerdict] at hv
    repeat' split at hv
    all_goals cases hv
  | madj n r =>
    simp only [verdict, madjVerdict] at hv
    repeat' split at hv
    all_goals cases hv
  | minv n =>
    simp only [verdict, minvVerdict] at hv
    repeat' split at hv
    all_goals cases hv
  | pfbuild => simp only [verdict, pfbuildVerdict] at hv; split at hv <;> cases hv
  | pfpos rd rd2 rs1 =>
    simp only [verdict, pfposVerdict] at hv
    rw [if_neg (by simpa [Instr.wellFormed] using wf)] at hv
    repeat' split at hv
    all_goals cases hv
  | pfpair rd rd2 dir =>
    simp only [verdict, pfpairVerdict] at hv
    rw [if_neg (by simpa [Instr.wellFormed] using wf)] at hv
    repeat' split at hv
    all_goals cases hv
  | tpidx | tpose | tinv =>
    simp only [verdict, tpidxVerdict, tposeVerdict, tinvVerdict] at hv
    cases hg : s.gridFault p with
    | none =>
      rw [hg] at hv
      simp only at hv
      repeat' split at hv
      all_goals cases hv
    | some q =>
      obtain ⟨c, v⟩ := q
      rw [hg] at hv
      cases hv
      simp only [State.gridFault] at hg
      split at hg
      · cases hg
      · split at hg <;> cases hg

namespace State

/-- Taking a fault keeps the invariant, if code 1 goes with a word that is no command and only with such a one. -/
theorem Inv.takeFault {s : State} {p : Config.Params} (hI : s.Inv p) (c : Cause) (info w : Word)
    (hc : c = .illegalCommand ↔ ∀ i, decode w ≠ .ok i) : (s.takeFault c info w).Inv p := by
  refine ⟨hI.1, hI.2, hI.3, hI.4, hI.5, hI.6, ?_, ?_, (Cause.code_range c).2, ?_, ?_, ?_⟩
  · intro b hb
    rw [State.takeFault_STATUS, statusSetF_bit, hI.reserved b hb]
    simp; omega
  · simp only [State.takeFault_F, State.takeFault_FCODE]
    cases c <;> decide
  · simp
  · intro _
    rw [State.takeFault_FCMD, ← hc, State.takeFault_FCODE]
    cases c <;> decide
  · intro hk
    rw [State.takeFault_KV] at hk
    exact hI.square hk

/-- CLRF keeps the invariant. -/
theorem Inv.endFault {s : State} {p : Config.Params} (hI : s.Inv p) : s.endFault.Inv p := by
  refine ⟨hI.1, hI.2, hI.3, hI.4, hI.5, hI.6, ?_, by simp, by simp, by simp, by simp, ?_⟩
  · intro b hb
    rw [State.endFault_STATUS, statusClearF_bit, hI.reserved b hb]
    simp
  · intro hk
    rw [State.endFault_KV] at hk
    exact hI.square hk

/-- A new key or key length keeps the invariant, because it drops the valid bit. -/
theorem Inv.writeKey {s : State} {p : Config.Params} (hI : s.Inv p) (kb : Memory 8) (kl : Word)
    (hkb : Memory.wf p.kcap kb = true) :
    ({ s with KBUF := kb, KLEN := kl, STATUS := statusClearKV s.STATUS } : State).Inv p := by
  have hF : (statusClearKV s.STATUS).getLsbD 0 = s.F := by
    rw [statusClearKV_bit]; simp only [State.F]; simp
  refine ⟨hI.1, hI.2, hI.3, hkb, hI.5, hI.6, ?_, ?_, hI.9, ?_, ?_, ?_⟩
  · intro b hb
    simp only [statusClearKV_bit, hI.reserved b hb]
    simp
  · simp only [State.F, hF]; exact hI.code
  · intro h
    simp only [State.F, hF] at h
    exact hI.quiet h
  · intro h
    simp only [State.F, hF] at h
    exact hI.faulting h
  · intro h
    simp only [State.KV, statusClearKV_bit] at h
    simp at h

/-- Any key-square memory whose 25 cells are the square of the key keeps the invariant with the valid bit set. -/
theorem Inv.setSquare {s : State} {p : Config.Params} (hI : s.Inv p) (hk : s.klen ≤ p.kcap) (m : Memory 5)
    (hm : Memory.wf Config.squareCells m = true)
    (hc : ∀ k < 25, (Memory.read m k).toNat = (buildSquare s.key).getD k 0) :
    ({ s with KSQ := m, STATUS := statusSetKV s.STATUS } : State).Inv p := by
  have hF : (statusSetKV s.STATUS).getLsbD 0 = s.F := by
    rw [statusSetKV_bit]; simp only [State.F]; simp
  have hkey : ({ s with KSQ := m, STATUS := statusSetKV s.STATUS } : State).key = s.key := rfl
  refine ⟨hI.1, hI.2, hm, hI.4, hI.5, hI.6, ?_, ?_, hI.9, ?_, ?_, fun _ => ⟨hk, ?_⟩⟩
  · intro b hb
    simp only [statusSetKV_bit, hI.reserved b hb]
    simp; omega
  · simp only [State.F, hF]; exact hI.code
  · intro h
    simp only [State.F, hF] at h
    exact hI.quiet h
  · intro h
    simp only [State.F, hF] at h
    exact hI.faulting h
  · apply List.ext_getElem
    · rw [State.squareList_length]; exact (buildSquare_length _).symm
    · intro n h1 h2
      rw [State.squareList_length] at h1
      rw [State.squareList_getElem _ h1, hc n h1, List.getD_eq_getElem?_getD,
        List.getElem?_eq_getElem (by rw [buildSquare_length]; exact h1), Option.getD_some]
      simp only [hkey]

end State

end Sys2Proof.Machine
end

