-- ==== Sys2Proof/Laws/Modular.lean ====
section
/-! SUPPORT. The extended Euclidean algorithm of MODINV finds exactly the values of the linear search
(spec/40_modular.md R82), and GCD's value is the end of the Euclidean loop (R81). -/

namespace Sys2Proof.Machine

/-- With enough fuel the algorithm ends with the greatest common divisor and a coefficient that gives it modulo m. -/
theorem euclid_spec (m a : Int) (fuel r0 r1 : Nat) (c0 c1 : Int) (hf : r1 < fuel)
    (h0 : m ∣ c0 * a - r0) (h1 : m ∣ c1 * a - r1) :
    (euclid fuel r0 r1 c0 c1).1 = Nat.gcd r0 r1 ∧
      m ∣ (euclid fuel r0 r1 c0 c1).2 * a - (euclid fuel r0 r1 c0 c1).1 := by
  induction fuel generalizing r0 r1 c0 c1 with
  | zero => omega
  | succ fuel ih =>
    unfold euclid
    split
    · rename_i h
      subst h
      exact ⟨by simp, h0⟩
    · rename_i h
      have hlt : r0 % r1 < r1 := Nat.mod_lt _ (by omega)
      have key : m ∣ (c0 - ((r0 / r1 : Nat) : Int) * c1) * a - ((r0 % r1 : Nat) : Int) := by
        have e : (r0 : Int) = r1 * ((r0 / r1 : Nat) : Int) + ((r0 % r1 : Nat) : Int) := by
          exact_mod_cast (Nat.div_add_mod r0 r1).symm
        have : (c0 - ((r0 / r1 : Nat) : Int) * c1) * a - ((r0 % r1 : Nat) : Int) =
            (c0 * a - r0) - ((r0 / r1 : Nat) : Int) * (c1 * a - r1) := by
          rw [e]; ring
        rw [this]
        exact dvd_sub h0 (Dvd.dvd.mul_left h1 _)
      have := ih r1 (r0 % r1) c1 _ (by omega) h1 key
      refine ⟨?_, this.2⟩
      rw [this.1, Nat.gcd_comm r1, ← Nat.gcd_rec, Nat.gcd_comm]

theorem fmod_mul_fmod (a t m : Int) : fmod (a * fmod t m) m = fmod (a * t) m := by
  simp [fmod, Int.mul_emod]

/-- If some multiple of `a` is 1 modulo `m`, the algorithm's coefficient is an inverse. -/
theorem euclid_inverse {a t m : Int} (hm : 2 ≤ m) (h : fmod (a * t) m = 1) :
    fmod (a * (euclid ((fmod a m).toNat + 1) m.toNat (fmod a m).toNat 0 1).2) m = 1 := by
  obtain ⟨ha0, ham⟩ := fmod_range a (show 1 ≤ m by omega)
  have hm' : (m.toNat : Int) = m := Int.toNat_of_nonneg (by omega)
  have ha' : ((fmod a m).toNat : Int) = fmod a m := Int.toNat_of_nonneg ha0
  obtain ⟨hg, hd⟩ := euclid_spec m a ((fmod a m).toNat + 1) m.toNat (fmod a m).toNat 0 1 (by omega)
    (by rw [hm']; exact ⟨-1, by ring⟩)
    (by rw [ha', one_mul]; unfold fmod; exact Int.dvd_self_sub_emod)
  have hone : Nat.gcd m.toNat (fmod a m).toNat = 1 := by
    have hdvd : ((Nat.gcd m.toNat (fmod a m).toNat : Nat) : Int) ∣ 1 := by
      have d1 : ((Nat.gcd m.toNat (fmod a m).toNat : Nat) : Int) ∣ m := by
        rw [← hm']; exact_mod_cast Nat.gcd_dvd_left _ _
      have d2 : ((Nat.gcd m.toNat (fmod a m).toNat : Nat) : Int) ∣ fmod a m := by
        have := Nat.gcd_dvd_right m.toNat (fmod a m).toNat
        rw [← ha']; exact_mod_cast this
      have d3 : m ∣ a * t - 1 := by rw [← h]; unfold fmod; exact Int.dvd_self_sub_emod
      have d4 : m ∣ a - fmod a m := by unfold fmod; exact Int.dvd_self_sub_emod
      have d5 := (dvd_sub (Dvd.dvd.mul_right (dvd_add (d1.trans d4) d2) t) (d1.trans d3))
      have e : (a - fmod a m + fmod a m) * t - (a * t - 1) = 1 := by ring
      rwa [e] at d5
    exact_mod_cast Int.eq_one_of_dvd_one (by positivity) hdvd
  rw [hg, hone, Nat.cast_one] at hd
  have h2 : m ∣ a * (euclid ((fmod a m).toNat + 1) m.toNat (fmod a m).toNat 0 1).2 - 1 := by
    rw [mul_comm]; exact hd
  unfold fmod at *
  rw [Int.emod_eq_emod_iff_emod_sub_eq_zero.2 (Int.emod_eq_zero_of_dvd h2)]
  exact Int.emod_eq_of_lt (by omega) (by omega)

/-- What `modInverse` delivers is the one t in [1, m) that passes the test of R82. -/
theorem modInverse_eq_some_iff {a m t : Int} (hm : 1 ≤ m) :
    modInverse a m = some t ↔ 1 ≤ t ∧ t < m ∧ fmod (a * t) m = 1 := by
  unfold modInverse
  generalize hc : (euclid ((fmod a m).toNat + 1) m.toNat (fmod a m).toNat 0 1).2 = c
  obtain ⟨hr0, hr1⟩ := fmod_range c hm
  constructor
  · intro h
    split at h
    · rename_i hone
      cases h
      refine ⟨?_, hr1, hone⟩
      rcases Int.lt_or_eq_of_le hr0 with h | h
      · omega
      · rw [← h] at hone; simp [fmod] at hone
    · cases h
  · rintro ⟨h1, h2, h3⟩
    have hinv : fmod (a * fmod c m) m = 1 := by
      rw [fmod_mul_fmod, ← hc]
      exact euclid_inverse (by omega) h3
    rw [if_pos hinv]
    congr 1
    have e1 : t = fmod (t * (a * fmod c m)) m := by
      have : fmod (t * (a * fmod c m)) m = fmod (t * 1) m := by
        rw [← fmod_mul_fmod, hinv]
      rw [this, mul_one]; exact (Int.emod_eq_of_lt (by omega) h2).symm
    have e2 : fmod c m = fmod (fmod c m * (a * t)) m := by
      have : fmod (fmod c m * (a * t)) m = fmod (fmod c m * 1) m := by
        rw [← fmod_mul_fmod, h3]
      rw [this, mul_one]; exact (Int.emod_eq_of_lt hr0 hr1).symm
    exact e2.trans ((congrArg (fmod · m) (by ring)).trans e1.symm)

/-- `modInverse` fails exactly when the linear search of R82 does. -/
theorem modInverse_eq_none_iff {a m : Int} (hm : 1 ≤ m) :
    modInverse a m = none ↔ ∀ t, 1 ≤ t → t < m → fmod (a * t) m ≠ 1 := by
  constructor
  · intro h t h1 h2 h3
    rw [(modInverse_eq_some_iff hm).2 ⟨h1, h2, h3⟩] at h
    cases h
  · intro h
    cases e : modInverse a m with
    | none => rfl
    | some t =>
      obtain ⟨h1, h2, h3⟩ := (modInverse_eq_some_iff hm).1 e
      exact absurd h3 (h t h1 h2)

/-- The Euclidean loop ends with the greatest common divisor. -/
theorem EuclidLoop_gcd (a b : Nat) : EuclidLoop a b (Nat.gcd a b) := by
  induction b using Nat.strong_induction_on generalizing a with
  | _ b ih =>
    rcases Nat.eq_zero_or_pos b with rfl | hb
    · simpa using EuclidLoop.done a
    · have h := ih (a % b) (Nat.mod_lt _ hb) b
      rw [Nat.gcd_comm b, ← Nat.gcd_rec, Nat.gcd_comm] at h
      exact .turn _ _ _ (by omega) (by exact_mod_cast h)

end Sys2Proof.Machine
end

