-- ==== Sys2Proof/Laws/Matrix.lean ====
section
/-! SUPPORT. The matrix engine: the determinant of size 3 written out, the entries of both adjugates (spec/41_matrix.md
R91, R93), what a result written to MR reads as (R90), and the matrix operand as a Mathlib matrix. -/

namespace Sys2Proof.Machine

theorem sign_even {k : Nat} (h : k % 2 = 0) : sign k = 1 := by simp [sign, h]

theorem sign_odd {k : Nat} (h : k % 2 = 1) : sign k = -1 := by simp [sign, h]

theorem det_three (M : IntMatrix) : det 3 M = M 0 0 * (M 1 1 * M 2 2 - M 1 2 * M 2 1)
    - M 0 1 * (M 1 0 * M 2 2 - M 1 2 * M 2 0) + M 0 2 * (M 1 0 * M 2 1 - M 1 1 * M 2 0) := by
  simp [det, minor, sign, List.range_succ]
  ring

/-- The four entries of the adjugate of size 2 (R93). -/
theorem adj_two (M : IntMatrix) :
    adj 2 M 0 0 = M 1 1 ∧ adj 2 M 0 1 = -M 0 1 ∧ adj 2 M 1 0 = -M 1 0 ∧ adj 2 M 1 1 = M 0 0 := by
  simp [adj, cofactor, det, minor, sign]

/-- The nine entries of the adjugate of size 3 (R93). -/
theorem adj_three (M : IntMatrix) :
    (adj 3 M 0 0 = M 1 1 * M 2 2 - M 1 2 * M 2 1 ∧ adj 3 M 0 1 = -(M 0 1 * M 2 2 - M 0 2 * M 2 1) ∧
      adj 3 M 0 2 = M 0 1 * M 1 2 - M 0 2 * M 1 1) ∧
    (adj 3 M 1 0 = -(M 1 0 * M 2 2 - M 1 2 * M 2 0) ∧ adj 3 M 1 1 = M 0 0 * M 2 2 - M 0 2 * M 2 0 ∧
      adj 3 M 1 2 = -(M 0 0 * M 1 2 - M 0 2 * M 1 0)) ∧
    (adj 3 M 2 0 = M 1 0 * M 2 1 - M 1 1 * M 2 0 ∧ adj 3 M 2 1 = -(M 0 0 * M 2 1 - M 0 1 * M 2 0) ∧
      adj 3 M 2 2 = M 0 0 * M 1 1 - M 0 1 * M 1 0) := by
  refine ⟨⟨?_, ?_, ?_⟩, ⟨?_, ?_, ?_⟩, ⟨?_, ?_, ?_⟩⟩ <;> simp [adj, cofactor, det, minor, sign]

theorem allFit32_iff (n : Nat) (Q : IntMatrix) :
    allFit32 n Q = true ↔ ∀ i < n, ∀ j < n, -2 ^ 31 ≤ Q i j ∧ Q i j ≤ 2 ^ 31 - 1 := by
  simp [allFit32, fits32_iff]

/-- A result written to MR: element (i, j) is in cell N·i + j, and the cells from N·N on keep their values (R90). -/
theorem read_setResult (s : State) (n : Nat) (q : IntMatrix) (h : Memory.wf Config.matrixCells s.MR = true) (a : Nat) :
    Memory.read (s.setResult n q).MR a =
      if a < n * n then to32 (q (a / n) (a % n)) else Memory.read s.MR a := by
  rw [State.setResult_MR, Memory.read_fill _ _ _ _ (Memory.wf_sorted h)]

theorem read_setResult_entry (s : State) (n : Nat) (q : IntMatrix) (h : Memory.wf Config.matrixCells s.MR = true)
    {i j : Nat} (hi : i < n) (hj : j < n) :
    Memory.read (s.setResult n q).MR (n * i + j) = to32 (q i j) := by
  rw [read_setResult s n q h, if_pos]
  · rw [Nat.mul_add_div (by omega), Nat.div_eq_of_lt hj, Nat.mul_add_mod, Nat.mod_eq_of_lt hj, Nat.add_zero]
  · calc n * i + j < n * i + n := by omega
      _ = n * (i + 1) := by ring
      _ ≤ n * n := Nat.mul_le_mul_left n hi

theorem State.operand_apply (s : State) (n : Nat) (i j : Fin n) : s.operand n i j = s.matrix n i j := rfl

end Sys2Proof.Machine
end

