-- ==== Sys2Proof/Laws/PerInstr.lean ====
section
/-! SUPPORT. Facts about every command as syntax, one lemma per constructor. -/

namespace Sys2Proof.Laws

/-- The row of the opcode map a command belongs to. -/
def rowOf : Instr → Op
  | .clrf => .clrf
  | .mod _ _ _ => .mod
  | .gcd _ _ _ => .gcd
  | .modinv _ _ _ => .modinv
  | .mdet _ _ _ => .mdet
  | .madj _ _ => .madj
  | .minv _ => .minv
  | .pfbuild => .pfbuild
  | .pfpos _ _ _ => .pfpos
  | .pfpair _ _ _ => .pfpair
  | .tpidx _ _ _ => .tpidx
  | .tpose => .tpose
  | .tinv => .tinv

end Sys2Proof.Laws

/-! ### A command's own row is the first row that accepts its word (spec/30_encoding.md R63) -/

namespace Sys2Proof.Laws.AcceptedByOwnRow

/-- The first row of the opcode map that accepts the command's word is the command's own. -/
def Statement (i : Instr) : Prop :=
  (opcodeTable.find? fun r => r.accepts (encode i)).map Row.op = some (rowOf i)

theorem clrf : Statement .clrf := by unfold Statement; decide

theorem mod : ∀ rd rs1 rs2, Statement (.mod rd rs1 rs2) := by unfold Statement; decide +kernel

theorem gcd : ∀ rd rs1 rs2, Statement (.gcd rd rs1 rs2) := by unfold Statement; decide +kernel

theorem modinv : ∀ rd rs1 rs2, Statement (.modinv rd rs1 rs2) := by unfold Statement; decide +kernel

theorem mdet : ∀ rd n r, Statement (.mdet rd n r) := by
  unfold Statement; intro rd n r; revert rd n; cases r <;> decide +kernel

theorem madj : ∀ n r, Statement (.madj n r) := by
  unfold Statement; intro n r; revert n; cases r <;> decide +kernel

theorem minv : ∀ n, Statement (.minv n) := by unfold Statement; decide +kernel

theorem pfbuild : Statement .pfbuild := by unfold Statement; decide

theorem pfpos : ∀ rd rd2 rs1, Statement (.pfpos rd rd2 rs1) := by unfold Statement; decide +kernel

theorem pfpair : ∀ rd rd2 dir, Statement (.pfpair rd rd2 dir) := by
  unfold Statement; intro rd rd2 dir; revert rd rd2; cases dir <;> decide +kernel

theorem tpidx : ∀ rd rs1 inv, Statement (.tpidx rd rs1 inv) := by
  unfold Statement; intro rd rs1 inv; revert rd rs1; cases inv <;> decide +kernel

theorem tpose : Statement .tpose := by unfold Statement; decide

theorem tinv : Statement .tinv := by unfold Statement; decide

end Sys2Proof.Laws.AcceptedByOwnRow
end

