-- ==== Sys2Proof/Laws/Window.lean ====
section
/-! SUPPORT. The rows of the window's map (spec/20_memory.md R41), one lemma each. -/

namespace Sys2Proof.Machine

theorem windowWord_control {i : Fin 1024} (h : i.val < 8) : windowWord i = controlWord i := by
  simp [windowWord, h]

theorem windowWord_x {i : Fin 1024} {r : Reg} (h : i.val = 16 + r.val) : windowWord i = .x r := by
  have := r.isLt
  have hv : i.val - 16 = r.val := by omega
  unfold windowWord
  rw [if_neg (by omega), dif_pos (by omega)]
  simp only [hv, Fin.eta]

theorem windowWord_ma {i : Fin 1024} {c : Fin 9} (h : i.val = 32 + c.val) : windowWord i = .ma c := by
  have := c.isLt
  have hv : i.val - 32 = c.val := by omega
  unfold windowWord
  rw [if_neg (by omega), dif_neg (by omega), dif_pos (by omega)]
  simp only [hv, Fin.eta]

theorem windowWord_mr {i : Fin 1024} {c : Fin 9} (h : i.val = 48 + c.val) : windowWord i = .mr c := by
  have := c.isLt
  have hv : i.val - 48 = c.val := by omega
  unfold windowWord
  rw [if_neg (by omega), dif_neg (by omega), dif_neg (by omega), dif_pos (by omega)]
  simp only [hv, Fin.eta]

theorem windowWord_ksq {i : Fin 1024} {c : Fin 25} (h : i.val = 64 + c.val) : windowWord i = .ksq c := by
  have := c.isLt
  have hv : i.val - 64 = c.val := by omega
  unfold windowWord
  rw [if_neg (by omega), dif_neg (by omega), dif_neg (by omega), dif_neg (by omega), dif_pos (by omega)]
  simp only [hv, Fin.eta]

theorem windowWord_kbuf {i : Fin 1024} {c : Fin 64} (h : i.val = 128 + c.val) : windowWord i = .kbuf c.val := by
  have := c.isLt
  have hv : i.val - 128 = c.val := by omega
  unfold windowWord
  rw [if_neg (by omega), dif_neg (by omega), dif_neg (by omega), dif_neg (by omega), dif_neg (by omega),
    if_pos (by omega), hv]

theorem windowWord_tbuf {i : Fin 1024} {c : Fin 256} (h : i.val = 256 + c.val) : windowWord i = .tbuf c.val := by
  have := c.isLt
  have hv : i.val - 256 = c.val := by omega
  unfold windowWord
  rw [if_neg (by omega), dif_neg (by omega), dif_neg (by omega), dif_neg (by omega), dif_neg (by omega),
    if_neg (by omega), if_pos (by omega), hv]

theorem windowWord_obuf {i : Fin 1024} {c : Fin 256} (h : i.val = 512 + c.val) : windowWord i = .obuf c.val := by
  have := c.isLt
  have hv : i.val - 512 = c.val := by omega
  unfold windowWord
  rw [if_neg (by omega), dif_neg (by omega), dif_neg (by omega), dif_neg (by omega), dif_neg (by omega),
    if_neg (by omega), if_neg (by omega), if_pos (by omega), hv]

theorem windowWord_reserved {i : Fin 1024} (h : (8 ≤ i.val ∧ i.val < 16) ∨ (24 ≤ i.val ∧ i.val < 32) ∨
    (41 ≤ i.val ∧ i.val < 48) ∨ (57 ≤ i.val ∧ i.val < 64) ∨ (89 ≤ i.val ∧ i.val < 128) ∨
    (192 ≤ i.val ∧ i.val < 256) ∨ 768 ≤ i.val) : windowWord i = .reserved := by
  unfold windowWord
  rw [if_neg (by omega), dif_neg (by omega), dif_neg (by omega), dif_neg (by omega), dif_neg (by omega),
    if_neg (by omega), if_neg (by omega), if_neg (by omega)]

/-- What the map says of a word index: one of its rows, at the row's place (R41). -/
theorem windowWord_cases (i : Fin 1024) :
    (i.val < 8 ∧ windowWord i = controlWord i) ∨
    (∃ r : Reg, i.val = 16 + r.val ∧ windowWord i = .x r) ∨
    (∃ c : Fin 9, i.val = 32 + c.val ∧ windowWord i = .ma c) ∨
    (∃ c : Fin 9, i.val = 48 + c.val ∧ windowWord i = .mr c) ∨
    (∃ c : Fin 25, i.val = 64 + c.val ∧ windowWord i = .ksq c) ∨
    (∃ c : Fin 64, i.val = 128 + c.val ∧ windowWord i = .kbuf c.val) ∨
    (∃ c : Fin 256, i.val = 256 + c.val ∧ windowWord i = .tbuf c.val) ∨
    (∃ c : Fin 256, i.val = 512 + c.val ∧ windowWord i = .obuf c.val) ∨
    (((8 ≤ i.val ∧ i.val < 16) ∨ (24 ≤ i.val ∧ i.val < 32) ∨ (41 ≤ i.val ∧ i.val < 48) ∨
      (57 ≤ i.val ∧ i.val < 64) ∨ (89 ≤ i.val ∧ i.val < 128) ∨ (192 ≤ i.val ∧ i.val < 256) ∨ 768 ≤ i.val) ∧
      windowWord i = .reserved) := by
  have hi := i.isLt
  by_cases h0 : i.val < 8
  · exact .inl ⟨h0, windowWord_control h0⟩
  by_cases h1 : 16 ≤ i.val ∧ i.val < 24
  · have e : i.val = 16 + (⟨i.val - 16, by omega⟩ : Reg).val := by simp only; omega
    exact .inr (.inl ⟨_, e, windowWord_x e⟩)
  by_cases h2 : 32 ≤ i.val ∧ i.val < 41
  · have e : i.val = 32 + (⟨i.val - 32, by omega⟩ : Fin 9).val := by simp only; omega
    exact .inr (.inr (.inl ⟨_, e, windowWord_ma e⟩))
  by_cases h3 : 48 ≤ i.val ∧ i.val < 57
  · have e : i.val = 48 + (⟨i.val - 48, by omega⟩ : Fin 9).val := by simp only; omega
    exact .inr (.inr (.inr (.inl ⟨_, e, windowWord_mr e⟩)))
  by_cases h4 : 64 ≤ i.val ∧ i.val < 89
  · have e : i.val = 64 + (⟨i.val - 64, by omega⟩ : Fin 25).val := by simp only; omega
    exact .inr (.inr (.inr (.inr (.inl ⟨_, e, windowWord_ksq e⟩))))
  by_cases h5 : 128 ≤ i.val ∧ i.val < 192
  · have e : i.val = 128 + (⟨i.val - 128, by omega⟩ : Fin 64).val := by simp only; omega
    exact .inr (.inr (.inr (.inr (.inr (.inl ⟨_, e, windowWord_kbuf e⟩)))))
  by_cases h6 : 256 ≤ i.val ∧ i.val < 512
  · have e : i.val = 256 + (⟨i.val - 256, by omega⟩ : Fin 256).val := by simp only; omega
    exact .inr (.inr (.inr (.inr (.inr (.inr (.inl ⟨_, e, windowWord_tbuf e⟩))))))
  by_cases h7 : 512 ≤ i.val ∧ i.val < 768
  · have e : i.val = 512 + (⟨i.val - 512, by omega⟩ : Fin 256).val := by simp only; omega
    exact .inr (.inr (.inr (.inr (.inr (.inr (.inr (.inl ⟨_, e, windowWord_obuf e⟩)))))))
  have h8 : (8 ≤ i.val ∧ i.val < 16) ∨ (24 ≤ i.val ∧ i.val < 32) ∨ (41 ≤ i.val ∧ i.val < 48) ∨
      (57 ≤ i.val ∧ i.val < 64) ∨ (89 ≤ i.val ∧ i.val < 128) ∨ (192 ≤ i.val ∧ i.val < 256) ∨ 768 ≤ i.val := by
    omega
  exact .inr (.inr (.inr (.inr (.inr (.inr (.inr (.inr ⟨h8, windowWord_reserved h8⟩)))))))

theorem windowWord_eq_cmd {i : Fin 1024} : windowWord i = .cmd ↔ i.val = 0 := by
  constructor
  · intro h
    rcases windowWord_cases i with ⟨h8, e⟩ | ⟨_, _, e⟩ | ⟨_, _, e⟩ | ⟨_, _, e⟩ | ⟨_, _, e⟩ | ⟨_, _, e⟩ | ⟨_, _, e⟩ |
      ⟨_, _, e⟩ | ⟨_, e⟩ <;> rw [e] at h <;> try cases h
    unfold controlWord at h
    split at h <;> first | assumption | cases h
  · intro h
    rw [windowWord_control (by omega)]
    simp [controlWord, h]

theorem transact_write_data {i : Fin 1024} (h : i.val ≠ 0) (w : Word) (s : State) :
    transact (.write i w) s = .next (hostStore i w s) := by
  simp [transact, transactThrough, windowWord_eq_cmd, h]

end Sys2Proof.Machine
end

