-- ==== Sys2Proof/Tests/Slice0.lean ====
section
/-! SUPPORT. Tests of the model, each expected value taken from the spec (spec/30_encoding.md R63 to R68,
spec/95_test_vectors.md), and for every statement with hypotheses a concrete input that meets them. -/

namespace Sys2Proof.Tests

open Sys2Proof Sys2Proof.Machine

/-! ### Small states -/

/-- After reset, with two registers written. -/
def withRegs (a b : Int) : State :=
  { State.reset with
    x := #v[BitVec.ofInt 32 a, BitVec.ofInt 32 b, 0#32, 0#32, 0#32, 0#32, 0#32, 0#32] }

/-- After reset, with the cells of MA written. -/
def withMatrix (l : List Int) : State :=
  { State.reset with MA := Memory.fill [] l.length fun k => BitVec.ofInt 32 (l.getD k 0) }

/-- After reset, with a key and its length written. -/
def withKey (codes : List Nat) : State :=
  { State.reset with
    KLEN := BitVec.ofNat 32 codes.length
    KBUF := Memory.fill [] codes.length fun k => BitVec.ofNat 8 (codes.getD k 0) }

/-- After reset, with a text, its length and a column count written. -/
def withText (cols : Nat) (codes : List Nat) : State :=
  { State.reset with
    TLEN := BitVec.ofNat 32 codes.length
    TCOLS := BitVec.ofNat 32 cols
    TBUF := Memory.fill [] codes.length fun k => BitVec.ofNat 8 (codes.getD k 0) }

/-- The state a command leaves. -/
def after (i : Instr) (s : State) : State :=
  match exec i s with
  | .next t => t
  | .fault _ => s
  | .refused _ => s

/-- The state a step leaves. -/
def stepped (s : State) : State :=
  match step s with
  | .next t => t
  | .fault _ => s
  | .refused _ => s

/-- What the fault registers and STATUS hold. -/
def faultWords (s : State) : List Nat := [s.STATUS.toNat, s.FCODE.toNat, s.FINFO.toNat, s.FCMD.toNat]

/-- The first `n` cells of a memory. -/
def cells {w : Nat} (m : Memory w) (n : Nat) : List Nat := (List.range n).map fun k => (Memory.read m k).toNat

/-- The square of the key MONARCHY, with two letters in x0 and x1. -/
def monarchy (a b : Int) : State :=
  { after .pfbuild (withKey [0x4D, 0x4F, 0x4E, 0x41, 0x52, 0x43, 0x48, 0x59]) with x := (withRegs a b).x }

/-- A state with the fault of `MINV 2` on [[1, 2], [3, 4]] recorded. -/
def faulted : State := after (.minv 2) (withMatrix [1, 2, 3, 4])

/-! ### WellFormed refuses ill-formed terms (R66) -/

theorem test_wellFormed_refuses_pfpos : (Instr.pfpos 2 2 1).wellFormed = false := by decide

theorem test_wellFormed_refuses_pfpair : (Instr.pfpair 2 2 .encrypt).wellFormed = false := by decide

theorem test_wellFormed_accepts_shared_source : (Instr.pfpos 3 4 3).wellFormed = true := by decide

/-! ### Decoding words written out from R63 and R68, and the words R64 to R66 make illegal -/

theorem test_decode_clrf : decode 0x01000000#32 = .ok .clrf := by decide

theorem test_decode_mod : decode 0b00010000_010_000_001_00_0_000000000000#32 = .ok (.mod 2 0 1) := by decide

theorem test_decode_gcd : decode 0b00010001_010_000_001_00_0_000000000000#32 = .ok (.gcd 2 0 1) := by decide

theorem test_decode_modinv : decode 0b00010010_011_000_001_00_0_000000000000#32 = .ok (.modinv 3 0 1) := by decide

theorem test_decode_mdet : decode 0b00100000_100_000_000_10_0_000000000000#32 = .ok (.mdet 4 2 .exact) ∧
    decode 0b00100000_100_000_000_11_1_000000000000#32 = .ok (.mdet 4 3 .reduced) := by decide

theorem test_decode_madj : decode 0b00100001_000_000_000_11_0_000000000000#32 = .ok (.madj 3 .exact) ∧
    decode 0b00100001_000_000_000_10_1_000000000000#32 = .ok (.madj 2 .reduced) := by decide

theorem test_decode_minv : decode 0b00100010_000_000_000_10_0_000000000000#32 = .ok (.minv 2) := by decide

theorem test_decode_pfbuild : decode 0x30000000#32 = .ok .pfbuild := by decide

theorem test_decode_pfpos : decode 0b00110001_001_000_010_00_0_000000000000#32 = .ok (.pfpos 1 2 0) := by decide

theorem test_decode_pfpair : decode 0b00110010_000_000_001_00_0_000000000000#32 = .ok (.pfpair 0 1 .encrypt) ∧
    decode 0b00110010_000_000_001_00_1_000000000000#32 = .ok (.pfpair 0 1 .decrypt) := by decide

theorem test_decode_tpidx : decode 0b01000000_001_000_000_00_0_000000000000#32 = .ok (.tpidx 1 0 .forward) ∧
    decode 0b01000000_001_000_000_00_1_000000000000#32 = .ok (.tpidx 1 0 .inverse) := by decide

theorem test_decode_tpose : decode 0x41000000#32 = .ok .tpose := by decide

theorem test_decode_tinv : decode 0x42000000#32 = .ok .tinv := by decide

theorem test_decode_rejects_unassigned : decode 0x00000000#32 = .error .unassignedOpcode ∧
    decode 0xFFFFFFFF#32 = .error .unassignedOpcode ∧ decode 0x13000000#32 = .error .unassignedOpcode := by decide

/-- R64's examples: a bit among 11:0; MDET with an rs1 field; MINV with f = 1; PFPAIR with an n field. -/
theorem test_decode_rejects_reserved : decode 0x01000001#32 = .error .reservedBits ∧
    decode 0x20844000#32 = .error .reservedBits ∧ decode 0x22005000#32 = .error .reservedBits ∧
    decode 0x3200A000#32 = .error .reservedBits := by decide

theorem test_decode_rejects_equal_destinations : decode 0x31450000#32 = .error .equalDestinations ∧
    decode 0x32410000#32 = .error .equalDestinations := by decide

theorem test_encode_worked : encode (.modinv 3 0 1) = 0x12608000#32 ∧ encode (.pfpos 1 2 0) = 0x31210000#32 := by
  decide

/-! ### One command each, from spec/95_test_vectors.md -/

theorem test_mod_negative : (after (.mod 2 0 1) (withRegs (-7) 5)).reg 2 = 3#32 := by decide

theorem test_mod_modulus : faultWords (after (.mod 2 0 1) (withRegs 7 (-26))) = [1, 3, 0xFFFFFFE6, 0x10408000] := by
  decide

theorem test_gcd : (after (.gcd 2 0 1) (withRegs 1071 462)).reg 2 = 21#32 := by decide

theorem test_gcd_range : faultWords (after (.gcd 2 0 1) (withRegs (-3) (-26))) = [1, 4, 0xFFFFFFFD, 0x11408000] := by
  decide

theorem test_modinv_negative : (after (.modinv 2 0 1) (withRegs (-3) 26)).reg 2 = 17#32 := by decide

theorem test_modinv_none : faultWords (after (.modinv 2 0 1) (withRegs 13 26)) = [1, 5, 13, 0x12408000] ∧
    (after (.modinv 2 0 1) (withRegs 13 26)).reg 2 = 0#32 := by decide

theorem test_mdet :
    (after (.mdet 4 3 .exact) (withMatrix [17, 17, 5, 21, 18, 21, 2, 2, 19])).reg 4 = 0xFFFFFC55#32 := by decide

theorem test_mdet_overflow : faultWords (after (.mdet 4 2 .exact) (withMatrix [65536, 0, 0, 32768])) =
    [1, 7, 0, 0x20804000] := by decide

theorem test_madj_reduced :
    cells (after (.madj 3 .reduced) (withMatrix [2, 4, 5, 9, 2, 1, 3, 17, 7])).MR 9 =
      [23, 5, 20, 18, 25, 17, 17, 4, 20] := by decide

theorem test_madj_size : faultWords (after (.madj 1 .exact) State.reset) = [1, 2, 1, 0x21002000] := by decide

/-- The vector that tells the inverse from its transpose (spec/90_conflicts.md C1). -/
theorem test_minv_not_transposed : cells (after (.minv 2) (withMatrix [3, 3, 2, 5])).MR 4 = [15, 17, 20, 9] := by
  decide

theorem test_minv_none : faultWords faulted = [1, 6, 24, 0x22004000] := by decide

/-- "Jazz-jive 42!": J, j, repeats, punctuation and digits. -/
theorem test_pfbuild : (after .pfbuild
    (withKey [0x4A, 0x61, 0x7A, 0x7A, 0x2D, 0x6A, 0x69, 0x76, 0x65, 0x20, 0x34, 0x32, 0x21])).squareList =
      [8, 0, 25, 21, 4, 1, 2, 3, 5, 6, 7, 10, 11, 12, 13, 14, 15, 16, 17, 18, 19, 20, 22, 23, 24] := by
  decide +kernel

theorem test_pfbuild_length : faultWords (after .pfbuild { State.reset with KLEN := 65#32 }) =
    [1, 8, 65, 0x30000000] := by decide

theorem test_pfpos : (after (.pfpos 0 1 0) (monarchy 8 0)).x = (withRegs 2 3).x := by decide +kernel

theorem test_pfpos_absent : faultWords (after (.pfpos 1 2 0) (monarchy 9 0)) = [3, 11, 9, 0x31210000] := by
  decide +kernel

theorem test_pfpair_row_wraps : (after (.pfpair 0 1 .encrypt) (monarchy 18 19)).x = (withRegs 19 11).x := by
  decide +kernel

theorem test_pfpair_column_up : (after (.pfpair 0 1 .decrypt) (monarchy 12 4)).x = (withRegs 20 2).x := by
  decide +kernel

theorem test_tpidx :
    (after (.tpidx 1 0 .forward) { withText 3 (List.replicate 10 0) with x := (withRegs 5 0).x }).reg 1 = 4#32 := by
  decide

theorem test_tpidx_inverse :
    (after (.tpidx 1 0 .inverse) { withText 3 (List.replicate 10 0) with x := (withRegs 4 0).x }).reg 1 = 5#32 := by
  decide

/-- "HELLOWORLD" in 3 columns gives "HLODEORLWL". -/
theorem test_tpose : cells (after .tpose
    (withText 3 [0x48, 0x45, 0x4C, 0x4C, 0x4F, 0x57, 0x4F, 0x52, 0x4C, 0x44])).OBUF 10 =
      [0x48, 0x4C, 0x4F, 0x44, 0x45, 0x4F, 0x52, 0x4C, 0x57, 0x4C] := by decide

theorem test_tinv : cells (after .tinv
    (withText 3 [0x48, 0x4C, 0x4F, 0x44, 0x45, 0x4F, 0x52, 0x4C, 0x57, 0x4C])).OBUF 10 =
      [0x48, 0x45, 0x4C, 0x4C, 0x4F, 0x57, 0x4F, 0x52, 0x4C, 0x44] := by decide

theorem test_clrf : faultWords (after .clrf faulted) = [0, 0, 0, 0] := by decide

/-! ### Steps -/

theorem test_step_runs_command :
    (stepped ((withRegs 48 18).withFetchWord 32 0x11408000)).reg 2 = 6#32 := by decide

theorem test_step_illegal : faultWords (stepped (State.reset.withFetchWord 32 0xFFFFFFFF)) = [1, 1, 0, 0xFFFFFFFF] := by
  decide

theorem test_step_gate : stepped (faulted.withFetchWord 32 0xFFFFFFFF) = faulted := by decide

/-- `W KBUF[0], 0x12345641` stores 0x41 and drops KV (R43, R44). -/
theorem test_step_write_key : cells (stepped { monarchy 0 0 with host := [.write 128 0x12345641#32] }).KBUF 1 = [0x41] ∧
    (stepped { monarchy 0 0 with host := [.write 128 0x12345641#32] }).STATUS = 0#32 := by decide

/-! ### Witnesses: concrete inputs that meet the hypotheses of the statements, clause by clause -/

/-- The determinant of the 2×2 operand. -/
theorem operand_det_two (s : State) : (s.operand 2).det =
    (Memory.read s.MA 0).toInt * (Memory.read s.MA 3).toInt -
      (Memory.read s.MA 1).toInt * (Memory.read s.MA 2).toInt := by
  rw [Matrix.det_fin_two]; rfl

/-- The adjugate of the 2×2 operand. -/
theorem operand_adjugate_two (s : State) : (s.operand 2).adjugate =
    !![(Memory.read s.MA 3).toInt, -(Memory.read s.MA 1).toInt;
      -(Memory.read s.MA 2).toInt, (Memory.read s.MA 0).toInt] := by
  rw [Matrix.adjugate_fin_two]; rfl

theorem witness_ModDeliversNonNegativeResidue :
    1 ≤ (withRegs (-1) 1).sint 1 ∧ (withRegs (-1) 0).sint 1 < 1 := by decide

theorem witness_GcdDeliversGreatestCommonDivisor :
    (0 ≤ (withRegs 0 0).sint 0 ∧ 0 ≤ (withRegs 0 0).sint 1) ∧ (withRegs (-1) 0).sint 0 < 0 ∧
    (0 ≤ (withRegs 0 (-1)).sint 0 ∧ (withRegs 0 (-1)).sint 1 < 0) := by decide

theorem witness_ModinvDeliversSmallestInverse_found :
    1 ≤ (withRegs 1 2).sint 1 ∧ (1 : Int) ≤ 1 ∧ 1 < (withRegs 1 2).sint 1 ∧
    (withRegs 1 2).sint 0 * 1 % (withRegs 1 2).sint 1 = 1 ∧
    ∀ u : Int, 1 ≤ u → u < 1 → (withRegs 1 2).sint 0 * u % (withRegs 1 2).sint 1 ≠ 1 :=
  ⟨by decide, by decide, by decide, by decide, fun u h1 h2 => absurd h2 (by omega)⟩

/-- m = 1, where the range of the search is empty, and m = 0. -/
theorem witness_ModinvDeliversSmallestInverse_none :
    (1 ≤ (withRegs 5 1).sint 1 ∧ ∀ t : Int, 1 ≤ t → t < (withRegs 5 1).sint 1 →
      (withRegs 5 1).sint 0 * t % (withRegs 5 1).sint 1 ≠ 1) ∧ (withRegs 3 0).sint 1 < 1 :=
  ⟨⟨by decide, fun t h1 h2 => absurd h2 (by rw [show (withRegs 5 1).sint 1 = 1 by decide]; omega)⟩, by decide⟩

theorem witness_InverseExistsExactlyWhenCoprime :
    (2 ≤ (withRegs 1 2).sint 1 ∧ Int.gcd ((withRegs 1 2).sint 0 % (withRegs 1 2).sint 1) ((withRegs 1 2).sint 1) = 1) ∧
    (2 ≤ (withRegs 0 2).sint 1 ∧ Int.gcd ((withRegs 0 2).sint 0 % (withRegs 0 2).sint 1) ((withRegs 0 2).sint 1) ≠ 1) ∧
    (withRegs 1 1).sint 1 = 1 ∧ ((withRegs 25 26).sint 1 = 26 ∧ (withRegs 25 26).sint 0 = 25) ∧
    ((withRegs 24 26).sint 1 = 26 ∧ (withRegs 24 26).sint 0 = 24) := by decide

/-- MODINV of (13, 26), and MINV of a matrix with determinant 13. -/
theorem witness_FailedSearchDeliversNothing :
    (1 ≤ (withRegs 13 26).sint 1 ∧ (∀ t : Int, 1 ≤ t → t < (withRegs 13 26).sint 1 →
      (withRegs 13 26).sint 0 * t % (withRegs 13 26).sint 1 ≠ 1)) ∧
    (∀ t : Int, 1 ≤ t → t < 26 → ((withMatrix [13, 0, 0, 1]).operand 2).det * t % 26 ≠ 1) ∧
    ((withRegs 13 26).sint 0 = 13 ∧ (withRegs 13 26).sint 1 = 26 ∧ (withRegs 13 26).reg 3 ≠ 1#32) := by
  refine ⟨⟨by decide, fun t _ _ => ?_⟩, fun t _ _ => ?_, by decide⟩
  · rw [show (withRegs 13 26).sint 0 = 13 by decide, show (withRegs 13 26).sint 1 = 26 by decide]; omega
  · rw [operand_det_two, show Memory.read (withMatrix [13, 0, 0, 1]).MA 0 = 13#32 by decide,
      show Memory.read (withMatrix [13, 0, 0, 1]).MA 1 = 0#32 by decide,
      show Memory.read (withMatrix [13, 0, 0, 1]).MA 2 = 0#32 by decide,
      show Memory.read (withMatrix [13, 0, 0, 1]).MA 3 = 1#32 by decide]
    have h : (13#32).toInt * (1#32).toInt - (0#32).toInt * (0#32).toInt = 13 := by decide
    rw [h]; omega

theorem witness_EngineComputesDeterminantAndAdjugate : (2 = 2 ∨ 2 = 3) ∧ (3 = 2 ∨ 3 = 3) := by decide

theorem witness_AdjugateTimesMatrixIsDeterminant :
    (2 = 2 ∨ 2 = 3) ∧ (1 < 2 ∧ 0 < 2) ∧ (3 = 2 ∨ 3 = 3) ∧ (2 < 3 ∧ 2 < 3) := by decide

/-- Determinants −2^31 and 2^31 − 1, which fit, and 2^31 and −2^31 − 1, which do not; and size 1. -/
theorem witness_MdetDeliversDeterminant :
    2 ≤ (2 : SizeField).val ∧
    ((withMatrix [65536, 0, 0, -32768]).operand 2).det = -2 ^ 31 ∧
    ((withMatrix [65536, 1, 1, 32768]).operand 2).det = 2 ^ 31 - 1 ∧
    2 ^ 31 - 1 < ((withMatrix [65536, 0, 0, 32768]).operand 2).det ∧
    ((withMatrix [65536, 1, 1, -32768]).operand 2).det < -2 ^ 31 ∧ (1 : SizeField).val < 2 := by
  simp only [operand_det_two]; decide

/-- An adjugate with an entry 2^31 − 1 and one −2^31, and one with an entry 2^31 (spec/95_test_vectors.md 2.2). -/
theorem witness_MadjDeliversAdjugate :
    Memory.wf Config.matrixCells State.reset.MR = true ∧ 2 ≤ (2 : SizeField).val ∧ (1 : SizeField).val < 2 ∧
    (∀ i j, -2 ^ 31 ≤ ((withMatrix [-2147483648, 0, 0, 2147483647]).operand 2).adjugate i j ∧
      ((withMatrix [-2147483648, 0, 0, 2147483647]).operand 2).adjugate i j ≤ 2 ^ 31 - 1) ∧
    (∃ i j, ((withMatrix [1, -2147483648, 0, 1]).operand 2).adjugate i j < -2 ^ 31 ∨
      2 ^ 31 - 1 < ((withMatrix [1, -2147483648, 0, 1]).operand 2).adjugate i j) := by
  simp only [operand_adjugate_two]
  refine ⟨by decide, by decide, by decide, fun i j => ?_, 0, 1, by decide⟩
  fin_cases i <;> fin_cases j <;> decide

theorem witness_MinvDeliversScaledAdjugate :
    Memory.wf Config.matrixCells State.reset.MR = true ∧ 2 ≤ (2 : SizeField).val ∧ (1 : SizeField).val < 2 ∧
    ((withMatrix [3, 3, 2, 5]).operand 2).det % 26 ∈ ([1, 3, 5, 7, 9, 11, 15, 17, 19, 21, 23, 25] : List Int) ∧
    ((withMatrix [13, 0, 0, 1]).operand 2).det % 26 ∉ ([1, 3, 5, 7, 9, 11, 15, 17, 19, 21, 23, 25] : List Int) := by
  simp only [operand_det_two]; decide

theorem witness_MinvInvertsModulo26 :
    Memory.wf Config.matrixCells State.reset.MR = true ∧ 2 ≤ (2 : SizeField).val ∧
    Int.gcd (((withMatrix [3, 3, 2, 5]).operand 2).det % 26) 26 = 1 ∧
    Int.gcd (((withMatrix [13, 0, 0, 1]).operand 2).det % 26) 26 ≠ 1 := by
  simp only [operand_det_two]; decide

/-- [[29, 29], [28, 31]] and [[3, 3], [2, 5]] agree mod 26 (spec/95_test_vectors.md 2.2). -/
theorem witness_ReducedResultsDependOnResidues : ∀ a, a < (2 : SizeField).val * (2 : SizeField).val →
    (Memory.read (withMatrix [29, 29, 28, 31]).MA a).toInt % 26 =
      (Memory.read (withMatrix [3, 3, 2, 5]).MA a).toInt % 26 := by
  decide

/-- 'A', 'z', and the codes beside the letters. -/
theorem witness_KeyCharacterIsNormalised :
    ((0 < 26) ∧ (0x41#8).toNat = 0x41 + 0) ∧ ((25 < 26) ∧ (0x7A#8).toNat = 0x61 + 25) ∧
    (0x40#8).toNat ≤ 0x40 ∧ (0x5B ≤ (0x5B#8).toNat ∧ (0x60#8).toNat ≤ 0x60) ∧ 0x7B ≤ (0x7B#8).toNat := by decide

theorem witness_PfbuildBuildsKeySquare : Memory.wf Config.squareCells State.reset.KSQ = true ∧
    ({ State.reset with KLEN := 64#32 } : State).KLEN.toNat ≤ 64 ∧
    64 < ({ State.reset with KLEN := 65#32 } : State).KLEN.toNat := by decide

/-- The invariant holds of a state with a valid square. -/
theorem monarchy_inv (a b : Int) : (monarchy a b).Inv where
  ma := rfl
  mr := rfl
  ksq := by show Memory.wf Config.squareCells (monarchy 0 0).KSQ = true; decide +kernel
  kbuf := by show Memory.wf Config.kcap (monarchy 0 0).KBUF = true; decide
  tbuf := rfl
  obuf := rfl
  reserved := by
    intro n hn
    rw [show (monarchy a b).STATUS = 2#32 from (by decide : (monarchy 0 0).STATUS = 2#32)]
    by_cases h : n < 32
    · interval_cases n <;> decide
    · exact BitVec.getLsbD_of_ge _ _ (by omega)
  code := by
    show (monarchy 0 0).FCODE = 0#32 ↔ (monarchy 0 0).F = false
    decide
  codeRange := by show (monarchy 0 0).FCODE.toNat ≤ 11; decide
  quiet := by
    intro _
    show (monarchy 0 0).FINFO = 0#32 ∧ (monarchy 0 0).FCMD = 0#32
    decide
  faulting := by
    intro h
    exact absurd (show (monarchy 0 0).F = true from h) (by decide)
  square := by
    intro _
    show (monarchy 0 0).klen ≤ Config.kcap ∧ (monarchy 0 0).squareList = buildSquare (monarchy 0 0).key
    decide +kernel

theorem witness_KeySquareHoldsEachLetterOnce :
    (monarchy 0 0).Inv ∧ (monarchy 0 0).KV = true ∧ ((0 : Int) ≤ 25 ∧ (25 : Int) < 26 ∧ (25 : Int) ≠ 9) ∧
    ((9 : Int) = 9 ∨ (9 : Int) < 0 ∨ 25 < (9 : Int)) := ⟨monarchy_inv 0 0, by decide, by decide, by decide⟩

/-- I at (2, 3), J absent, 26 absent, Z present, and no valid square after reset. -/
theorem witness_PfposDeliversPosition :
    (0 : Reg) ≠ 1 ∧ (monarchy 8 0).KV = true ∧ (monarchy 8 0).HoldsAt ((monarchy 8 0).sint 0) 2 3 ∧
    (monarchy 9 0).Absent ((monarchy 9 0).sint 0) ∧ 25 < (monarchy 26 0).sint 0 ∧ (monarchy (-1) 0).sint 0 < 0 ∧
    (0 ≤ (monarchy 25 0).sint 0 ∧ (monarchy 25 0).sint 0 ≤ 25 ∧ (monarchy 25 0).sint 0 ≠ 9) ∧
    State.reset.KV = false := by
  unfold State.HoldsAt State.Absent; decide +kernel

/-- S and T share a row, M and E a column, I and N neither; J first; J second. -/
theorem witness_PfpairSubstitutesPair :
    (0 : Reg) ≠ 1 ∧ (monarchy 18 19).KV = true ∧
    ((monarchy 18 19).HoldsAt ((monarchy 18 19).sint 0) 3 3 ∧ (monarchy 18 19).HoldsAt ((monarchy 18 19).sint 1) 3 4) ∧
    ((monarchy 12 4).HoldsAt ((monarchy 12 4).sint 0) 0 0 ∧ (monarchy 12 4).HoldsAt ((monarchy 12 4).sint 1) 2 0) ∧
    ((monarchy 8 13).HoldsAt ((monarchy 8 13).sint 0) 2 3 ∧ (monarchy 8 13).HoldsAt ((monarchy 8 13).sint 1) 0 2) ∧
    (monarchy 9 30).Absent ((monarchy 9 30).sint 0) ∧
    ((monarchy 8 30).HoldsAt ((monarchy 8 30).sint 0) 2 3 ∧ (monarchy 8 30).Absent ((monarchy 8 30).sint 1)) ∧
    State.reset.KV = false := by
  unfold State.HoldsAt State.Absent; decide +kernel

theorem witness_PfpairDecryptUndoesEncrypt :
    (0 : Reg) ≠ 1 ∧ (monarchy 0 25).Inv ∧ (monarchy 0 25).KV = true ∧
    (0 ≤ (monarchy 0 25).sint 0 ∧ (monarchy 0 25).sint 0 ≤ 25 ∧ (monarchy 0 25).sint 0 ≠ 9) ∧
    (0 ≤ (monarchy 0 25).sint 1 ∧ (monarchy 0 25).sint 1 ≤ 25 ∧ (monarchy 0 25).sint 1 ≠ 9) :=
  ⟨by decide, monarchy_inv 0 25, by decide, by decide, by decide⟩

/-- One input for each clause: reset, a PFBUILD that commits and one that faults, another command, a PFBUILD on a valid
square, a discarded word, a write to the last KBUF cell, a write beside it, a read. -/
theorem witness_KeyValidBitLifecycle :
    (∃ t, transact .reset (monarchy 0 0) = .next t) ∧
    ((∃ t, exec .pfbuild State.reset = .next t) ∧ State.reset.KLEN.toNat ≤ 64 ∧
      64 < ({ State.reset with KLEN := 65#32 } : State).KLEN.toNat) ∧
    (Instr.clrf ≠ .pfbuild ∧ ∃ t, exec .clrf (monarchy 0 0) = .next t) ∧
    ((monarchy 0 0).Inv ∧ (monarchy 0 0).KV = true) ∧
    (0x30000001#32 ≠ 0x30000000#32 ∧ ∃ t, presentCommand 0x30000001#32 faulted = .next t) ∧
    ((128 ≤ (191 : Fin 1024).val ∧ (191 : Fin 1024).val < 192) ∧
      ∃ t, transact (.write 191 0#32) (monarchy 0 0) = .next t) ∧
    (¬ ((192 : Fin 1024).val = 0 ∨ (192 : Fin 1024).val = 5 ∨
        (128 ≤ (192 : Fin 1024).val ∧ (192 : Fin 1024).val < 192)) ∧
      ∃ t, transact (.write 192 0#32) (monarchy 0 0) = .next t) ∧
    ∃ t, transact (.read 5) (monarchy 0 0) = .next t := by
  refine ⟨⟨_, rfl⟩, ⟨⟨_, rfl⟩, by decide, by decide⟩, ⟨by decide, _, rfl⟩, ⟨monarchy_inv 0 0, by decide⟩,
    ⟨by decide, ?_⟩, ⟨by decide, _, rfl⟩, ⟨by decide, _, rfl⟩, _, rfl⟩
  exact ⟨faulted, presentCommand_gated (by decide) (by decide)⟩

/-- Ten cells in three columns, one cell in more columns than cells, and an empty text. -/
theorem witness_RunLengthCountsColumnCells :
    (1 ≤ 3 ∧ 1 ≤ 10 ∧ 2 < 3) ∧ (1 ≤ 2 ∧ 1 ≤ 1 ∧ 1 < 2) ∧ (1 ≤ 1 ∧ 0 < 1) := by decide

theorem witness_TransposeIndexVisitsColumnMajor :
    1 ≤ 3 ∧ 9 < 10 ∧ 0 < 10 ∧ transposeIndex 10 3 9 = transposeIndex 10 3 9 := by decide

theorem witness_InverseIndexUndoesTransposeIndex :
    1 ≤ 3 ∧ 3 ≤ 3 ∧ 9 < 10 ∧ (1 = 1 ∨ 10 ≤ 1) ∧ (10 = 1 ∨ 10 ≤ 10) := by decide

/-- The longest text with one column; positions L − 1 and L; a text too long; no columns. -/
theorem witness_TpidxDeliversIndexMapping :
    ((withText 1 (List.replicate 256 0)).TLEN.toNat ≤ 256 ∧ 1 ≤ (withText 1 (List.replicate 256 0)).TCOLS.toNat) ∧
    (({ withText 3 [1, 2] with x := (withRegs 1 0).x } : State).sint 0 = (1 : Nat) ∧
      1 < (withText 3 [1, 2]).TLEN.toNat) ∧
    (({ withText 3 [1, 2] with x := (withRegs 2 0).x } : State).sint 0 ≥ (withText 3 [1, 2]).TLEN.toNat) ∧
    (withRegs (-1) 0).sint 0 < 0 ∧ 256 < ({ State.reset with TLEN := 257#32 } : State).TLEN.toNat ∧
    (State.reset.TLEN.toNat ≤ 256 ∧ State.reset.TCOLS.toNat = 0) := by decide +kernel

theorem witness_TposeGathersText : Memory.wf Config.tcap (withText 3 [1, 2]).OBUF = true ∧
    ((withText 3 [1, 2]).TLEN.toNat ≤ 256 ∧ 1 ≤ (withText 3 [1, 2]).TCOLS.toNat ∧ 1 < (withText 3 [1, 2]).TLEN.toNat) ∧
    256 < ({ State.reset with TLEN := 257#32 } : State).TLEN.toNat ∧
    (State.reset.TLEN.toNat ≤ 256 ∧ State.reset.TCOLS.toNat = 0) := by decide

theorem witness_TinvScattersText : Memory.wf Config.tcap (withText 1 [1, 2]).OBUF = true ∧
    ((withText 1 [1, 2]).TLEN.toNat ≤ 256 ∧ 1 ≤ (withText 1 [1, 2]).TCOLS.toNat ∧ 1 < (withText 1 [1, 2]).TLEN.toNat) ∧
    256 < ({ State.reset with TLEN := 257#32 } : State).TLEN.toNat ∧
    (State.reset.TLEN.toNat ≤ 256 ∧ State.reset.TCOLS.toNat = 0) := by decide

/-- "ABCDE" in two columns, its transposition "ACEBD" copied into TBUF. -/
theorem witness_TranspositionRoundTrip :
    Memory.wf Config.tcap (withText 2 [0x41, 0x42, 0x43, 0x44, 0x45]).OBUF = true ∧
    (withText 2 [0x41, 0x42, 0x43, 0x44, 0x45]).TLEN.toNat ≤ 256 ∧
    1 ≤ (withText 2 [0x41, 0x42, 0x43, 0x44, 0x45]).TCOLS.toNat ∧
    ∀ a < (withText 2 [0x41, 0x42, 0x43, 0x44, 0x45]).TLEN.toNat,
      Memory.read (withText 2 [0x41, 0x43, 0x45, 0x42, 0x44]).TBUF a =
        Memory.read (after .tpose (withText 2 [0x41, 0x42, 0x43, 0x44, 0x45])).OBUF a := by decide

/-- The other order: "HLODEORLWL" in three columns under TINV gives "HELLOWORLD", copied into TBUF. -/
theorem witness_TranspositionRoundTrip_inverse_first :
    (withText 3 [0x48, 0x4C, 0x4F, 0x44, 0x45, 0x4F, 0x52, 0x4C, 0x57, 0x4C]).TLEN.toNat ≤ 256 ∧
    ∀ a < (withText 3 [0x48, 0x4C, 0x4F, 0x44, 0x45, 0x4F, 0x52, 0x4C, 0x57, 0x4C]).TLEN.toNat,
      Memory.read (withText 3 [0x48, 0x45, 0x4C, 0x4C, 0x4F, 0x57, 0x4F, 0x52, 0x4C, 0x44]).TBUF a =
        Memory.read (after .tinv (withText 3 [0x48, 0x4C, 0x4F, 0x44, 0x45, 0x4F, 0x52, 0x4C, 0x57, 0x4C])).OBUF a := by
  decide

/-- A word beside CLRF's, a recorded fault, and a state of the invariant without one. -/
theorem witness_ClrfClearsRecordedFault :
    ((0x01000001#32).extractLsb' 24 8 = 0x01#8 ∧ 0x01000001#32 ≠ 0x01000000#32) ∧
    (faulted.F = true ∧ 0x22004000#32 ≠ 0x01000000#32) ∧ (monarchy 0 0).Inv ∧ (monarchy 0 0).F = false :=
  ⟨by decide, by decide, monarchy_inv 0 0, by decide⟩

theorem witness_FaultIsPrecise : (withMatrix [1, 2, 3, 4]).F = false ∧
    presentCommand 0x22004000#32 (withMatrix [1, 2, 3, 4]) = .next faulted ∧ faulted.F = true :=
  ⟨by decide, presentCommand_command (.inl (by decide)) (by decide : decode 0x22004000#32 = .ok (.minv 2)),
    by decide⟩

theorem witness_CommandRaisesOnlyItsFaults : (Instr.minv 2).wellFormed = true ∧ (withMatrix [1, 2, 3, 4]).F = false ∧
    exec (.minv 2) (withMatrix [1, 2, 3, 4]) = .next faulted := ⟨by decide, by decide, rfl⟩

/-- A word with a bit among 11:0 set, and PFPOS and PFPAIR words with rd = rd2 (spec/95_test_vectors.md 2.3). -/
theorem witness_IllegalWordIsRecorded : State.reset.F = false ∧
    (∀ r ∈ opcodeTable, 0x01000001#32 &&& r.mask ≠ r.pattern) ∧
    (0x31450000#32 &&& 0xFF007FFF#32 = 0x31000000#32 ∧
      (0x31450000#32).extractLsb' 21 3 = (0x31450000#32).extractLsb' 15 3) ∧
    (0x32410000#32 &&& 0xFF1C6FFF#32 = 0x32000000#32 ∧
      (0x32410000#32).extractLsb' 21 3 = (0x32410000#32).extractLsb' 15 3) := by
  decide

theorem witness_FaultGateDiscardsCommands :
    faulted.F = true ∧ 0x01000001#32 ≠ 0x01000000#32 ∧ (1 : Fin 1024).val ≠ 0 := by decide

theorem witness_CommandWriteDispatch : faulted.F = true ∧ 0x01000001#32 ≠ 0x01000000#32 ∧ State.reset.F = false ∧
    (∀ i, decode 0x00000000#32 ≠ .ok i) ∧ decode 0x42000000#32 = .ok .tinv := by
  refine ⟨by decide, by decide, by decide, fun i h => ?_, by decide⟩
  rw [show decode 0x00000000#32 = .error .unassignedOpcode by decide] at h
  cases h

theorem witness_FaultGateHoldsForBatch :
    ({ faulted with host := [.write 0 0x10408000#32, .write 0 0#32] } : State).F = true ∧
    (∀ w ∈ [0x10408000#32, 0#32], w ≠ 0x01000000#32) ∧
    ({ faulted with host := [.write 0 0x10408000#32, .write 0 0#32] } : State).host =
      [0x10408000#32, 0#32].map (Transaction.write 0) ++ [] ∧
    ({ faulted with host := [.write 0 0x10408000#32, .write 0 0#32] } : State).rdata = none :=
  ⟨by decide, by simp, by decide, by decide⟩

theorem witness_CommandWritesOnlyItsDestinations :
    exec (.mod 2 0 1) State.reset = .next (after (.mod 2 0 1) State.reset) ∧ (3 : Reg) ∉ destinations (.mod 2 0 1) ∧
    (Instr.mod 2 0 1 ≠ .pfbuild ∧ Instr.mod 2 0 1 ≠ .tpose ∧ Instr.mod 2 0 1 ≠ .tinv) ∧
    ((∀ n r, Instr.mod 2 0 1 ≠ .madj n r) ∧ ∀ n, Instr.mod 2 0 1 ≠ .minv n) := by
  refine ⟨rfl, by decide, by decide, ?_, ?_⟩ <;> intros <;> exact Instr.noConfusion

theorem witness_OpcodeRowsAreDisjoint : (⟨.mod, 0x10000000#32, 0xFF007FFF#32⟩ : Row) ∈ opcodeTable ∧
    0x10FF8000#32 &&& 0xFF007FFF#32 = 0x10000000#32 := by decide

theorem witness_CommandWordFieldsSitInPlace : 255 < 256 ∧ 7 < 8 ∧ 3 < 4 ∧ 1 < 2 := by decide

theorem witness_DecodeOfEncodeIsIdentity : (Instr.pfpos 7 0 7).wellFormed = true := by decide

theorem witness_EncodeOfDecodeIsIdentity : decode 0x32E09000#32 = .ok (.pfpair 7 1 .decrypt) := by decide

/-- The last word index of each block of the map, and the first reserved one after them. -/
theorem witness_HostReadReturnsWindowWord :
    (23 : Fin 1024).val = 16 + (7 : Reg).val ∧ (40 : Fin 1024).val = 32 + 8 ∧ (56 : Fin 1024).val = 48 + 8 ∧
    (88 : Fin 1024).val = 64 + 24 ∧ (191 : Fin 1024).val = 128 + 63 ∧ (511 : Fin 1024).val = 256 + 255 ∧
    (767 : Fin 1024).val = 512 + 255 ∧ 768 ≤ (768 : Fin 1024).val := by decide

theorem witness_HostWriteStoresOperand :
    (16 : Fin 1024).val = 16 + (0 : Reg).val ∧ ((40 : Fin 1024).val = 32 + 8 ∧ Memory.wf 9 State.reset.MA = true) ∧
    ((191 : Fin 1024).val = 128 + 63 ∧ Memory.wf 64 State.reset.KBUF = true) ∧
    ((511 : Fin 1024).val = 256 + 255 ∧ Memory.wf 256 State.reset.TBUF = true) ∧ 512 ≤ (512 : Fin 1024).val := by decide

theorem witness_WindowReadAfterWrite :
    (monarchy 0 0).Inv ∧ (5 : Fin 1024).val ≠ 0 ∧ (32 ≤ (40 : Fin 1024).val ∧ (40 : Fin 1024).val < 41) ∧
    (256 ≤ (511 : Fin 1024).val ∧ (511 : Fin 1024).val < 512) ∧ ((6 : Fin 1024) ≠ 5 ∧ (6 : Fin 1024).val ≠ 1) :=
  ⟨monarchy_inv 0 0, by decide, by decide, by decide, by decide⟩

theorem witness_CommandsStraightAfterReset : 2 ≤ (2 : SizeField).val ∧ 2 ≤ (3 : SizeField).val ∧ (0 : Reg) ≠ 7 := by decide

theorem witness_StepRunsDecodedCommand : (State.reset.withFetchWord 32 0x42000000).F = false ∧
    decode 0x42000000#32 = .ok .tinv ∧
    (State.reset.withFetchWord 32 0x42000000).host = .write 0 0x42000000#32 :: [] := by
  decide

theorem witness_ScriptCompletesInOrder :
    State.reset.host = [] ∧
    ({ State.reset with host := [.write 16 7#32, .read 16] } : State).host = .write 16 7#32 :: [.read 16] ∧
    ({ State.reset with host := [.write 16 7#32, .read 16] } : State).host = [.write 16 7#32] ++ [.read 16] :=
  ⟨rfl, rfl, rfl⟩

/-- A unit with a key buffer of 128 cells and text buffers of 8, a map of its own, and nothing in it. -/
def smallTextBuild : Build where
  params := { kcap := 128, tcap := 8 }
  map := fun i => if i.val = 0 then .cmd else if 128 ≤ i.val ∧ i.val < 256 then .kbuf (i.val - 128) else .reserved

/-- Lengths at each capacity and one above, and a unit with other capacities that answers alike. -/
theorem witness_CapacitiesBoundLengths :
    Memory.wf Config.squareCells State.reset.KSQ = true ∧ Memory.wf smallTextBuild.params.tcap State.reset.OBUF = true ∧
    ({ State.reset with KLEN := 128#32 } : State).KLEN.toNat ≤ smallTextBuild.params.kcap ∧
    smallTextBuild.params.kcap < ({ State.reset with KLEN := 129#32 } : State).KLEN.toNat ∧
    (({ State.reset with TLEN := 8#32, TCOLS := 1#32 } : State).TLEN.toNat ≤ smallTextBuild.params.tcap ∧
      1 ≤ ({ State.reset with TLEN := 8#32, TCOLS := 1#32 } : State).TCOLS.toNat) ∧
    (({ withRegs 7 0 with TLEN := 8#32, TCOLS := 1#32 } : State).sint 0 = (7 : Nat) ∧ 7 < (8#32).toNat) ∧
    smallTextBuild.params.tcap < ({ State.reset with TLEN := 9#32 } : State).TLEN.toNat ∧
    ((State.reset.KLEN.toNat ≤ smallTextBuild.params.kcap ↔ State.reset.KLEN.toNat ≤ ({} : Config.Params).kcap) ∧
      (State.reset.TLEN.toNat ≤ smallTextBuild.params.tcap ↔ State.reset.TLEN.toNat ≤ ({} : Config.Params).tcap)) := by
  decide

/-- That unit raises BadLength for nine characters and accepts a key of 65 (R4). -/
theorem test_capacities :
    faultWords (match execAt smallTextBuild.params .tpose { State.reset with TLEN := 9#32 } with
      | .next t => t
      | .fault _ => State.reset
      | .refused _ => State.reset) = [1, 8, 9, 0x41000000] ∧
    faultWords (match execAt smallTextBuild.params .pfbuild { State.reset with KLEN := 65#32 } with
      | .next t => t
      | .fault _ => State.reset
      | .refused _ => State.reset) = [2, 0, 0, 0] := by decide +kernel

theorem witness_EveryBuildKeepsInvariant : smallTextBuild.laidOut ∧
    ({ monarchy 0 0 with host := [] } : State).Inv smallTextBuild.params ∧
    smallTextBuild.step (monarchy 0 0) = .next (idle (monarchy 0 0)) := by
  refine ⟨fun i c => ?_, ?_, rfl⟩
  · have hi := i.isLt
    simp only [smallTextBuild]
    split_ifs <;> simp; omega
  · have h := monarchy_inv 0 0
    have hk : Memory.wf 128 (monarchy 0 0).KBUF = true := by decide +kernel
    have ht : Memory.wf 8 (monarchy 0 0).TBUF = true ∧ Memory.wf 8 (monarchy 0 0).OBUF = true := by decide +kernel
    generalize monarchy 0 0 = m at h hk ht ⊢
    exact ⟨h.1, h.2, h.3, hk, ht.1, ht.2, h.7, h.8, h.9, h.10, h.11,
      fun v => ⟨(h.square v).1.trans (by decide), (h.square v).2⟩⟩

theorem witness_EveryStepKeepsInvariant : (monarchy 0 0).Inv ∧ step (monarchy 0 0) = .next (idle (monarchy 0 0)) :=
  ⟨monarchy_inv 0 0, rfl⟩

end Sys2Proof.Tests
end

section
/-! PROOFS. A command is what its word decodes to (spec/30_encoding.md R63, R66). -/

namespace Sys2Proof

theorem acceptedByOwnRow (i : Instr) : Laws.AcceptedByOwnRow.Statement i := by
  cases i with
  | clrf => exact Laws.AcceptedByOwnRow.clrf
  | mod rd rs1 rs2 => exact Laws.AcceptedByOwnRow.mod rd rs1 rs2
  | gcd rd rs1 rs2 => exact Laws.AcceptedByOwnRow.gcd rd rs1 rs2
  | modinv rd rs1 rs2 => exact Laws.AcceptedByOwnRow.modinv rd rs1 rs2
  | mdet rd n r => exact Laws.AcceptedByOwnRow.mdet rd n r
  | madj n r => exact Laws.AcceptedByOwnRow.madj n r
  | minv n => exact Laws.AcceptedByOwnRow.minv n
  | pfbuild => exact Laws.AcceptedByOwnRow.pfbuild
  | pfpos rd rd2 rs1 => exact Laws.AcceptedByOwnRow.pfpos rd rd2 rs1
  | pfpair rd rd2 dir => exact Laws.AcceptedByOwnRow.pfpair rd rd2 dir
  | tpidx rd rs1 inv => exact Laws.AcceptedByOwnRow.tpidx rd rs1 inv
  | tpose => exact Laws.AcceptedByOwnRow.tpose
  | tinv => exact Laws.AcceptedByOwnRow.tinv

theorem ResultForm.ofBit_bit (r : ResultForm) :
    r.bit < 2 ∧ (if decide (r.bit = 1) then ResultForm.reduced else .exact) = r := by
  cases r <;> decide

theorem Direction.ofBit_bit (d : Direction) :
    d.bit < 2 ∧ (if decide (d.bit = 1) then Direction.decrypt else .encrypt) = d := by
  cases d <;> decide

theorem IndexMap.ofBit_bit (m : IndexMap) :
    m.bit < 2 ∧ (if decide (m.bit = 1) then IndexMap.inverse else .forward) = m := by
  cases m <;> decide

/-- A command's operands stand in its word at the positions its row reads (R61, R62). -/
theorem operands_encode (i : Instr) : (Laws.rowOf i).operands (encode i) = i := by
  cases i with
  | clrf | pfbuild | tpose | tinv => rfl
  | mod rd rs1 rs2 | gcd rd rs1 rs2 | modinv rd rs1 rs2 | pfpos rd rs2 rs1 =>
    simp (disch := omega) [Laws.rowOf, Op.operands, encode, Fin.ext_iff, rdField_assemble, rs1Field_assemble,
      rs2Field_assemble]
  | minv n => simp (disch := omega) [Laws.rowOf, Op.operands, encode, Fin.ext_iff, nField_assemble]
  | mdet rd n r =>
    obtain ⟨hb, hr⟩ := r.ofBit_bit
    simpa (disch := omega) [Laws.rowOf, Op.operands, encode, Fin.ext_iff, rdField_assemble, nField_assemble,
      fField_assemble] using hr
  | madj n r =>
    obtain ⟨hb, hr⟩ := r.ofBit_bit
    simpa (disch := omega) [Laws.rowOf, Op.operands, encode, Fin.ext_iff, nField_assemble, fField_assemble] using hr
  | pfpair rd rd2 dir =>
    obtain ⟨hb, hd⟩ := dir.ofBit_bit
    simpa (disch := omega) [Laws.rowOf, Op.operands, encode, Fin.ext_iff, rdField_assemble, rs2Field_assemble,
      fField_assemble] using hd
  | tpidx rd rs1 inv =>
    obtain ⟨hb, hm⟩ := inv.ofBit_bit
    simpa (disch := omega) [Laws.rowOf, Op.operands, encode, Fin.ext_iff, rdField_assemble, rs1Field_assemble,
      fField_assemble] using hm

theorem decode_encode {i : Instr} (hwf : i.wellFormed = true) : decode (encode i) = .ok i := by
  obtain ⟨r, hr, hop⟩ := Option.map_eq_some_iff.1 (acceptedByOwnRow i)
  have hi : r.op.operands (encode i) = i := hop ▸ operands_encode i
  simp only [decode, hr, hi, hwf, if_true]

/-- The decoder gives well-formed commands only (R66). -/
theorem wellFormed_of_decode {w : Word} {i : Instr} (hd : decode w = .ok i) : i.wellFormed = true := by
  unfold decode at hd
  split at hd
  · split at hd <;> cases hd
  · split at hd
    · cases hd; assumption
    · cases hd

end Sys2Proof
end

section
/-! PROOFS. The invariant along a step of a unit with any parameters and any map of its cells (spec/00_scope.md R4). -/

namespace Sys2Proof.Machine

/-! ### The square PFBUILD writes (spec/42_playfair.md R107) -/

/-- KSQ after PFBUILD. -/
def State.builtSquare (s : State) : Memory 5 :=
  Memory.fill s.KSQ Config.squareCells fun k => BitVec.ofNat 5 ((buildSquare s.key).getD k 0)

theorem State.wf_builtSquare {s : State} (h : Memory.wf Config.squareCells s.KSQ = true) :
    Memory.wf Config.squareCells s.builtSquare = true :=
  Memory.wf_fill _ _ _ h le_rfl

/-- A cell of five bits holds any letter index. -/
theorem State.read_builtSquare {s : State} (h : Memory.wf Config.squareCells s.KSQ = true) {k : Nat} (hk : k < 25) :
    (Memory.read s.builtSquare k).toNat = (buildSquare s.key).getD k 0 := by
  have hlt := buildSquare_lt s.key k
  rw [State.builtSquare, Memory.read_fill _ _ _ _ ((Memory.wf_iff _ _).1 h).1, if_pos hk, BitVec.toNat_ofNat,
    Nat.mod_eq_of_lt (by omega)]

theorem State.squareList_eq {s : State} {l : List Nat} (hl : l.length = 25)
    (h : ∀ k < 25, (Memory.read s.KSQ k).toNat = l.getD k 0) : s.squareList = l := by
  refine List.ext_getElem (by rw [s.squareList_length, hl]) fun k hk hk' => ?_
  rw [s.squareList_length] at hk
  rw [s.squareList_getElem hk, h k hk, List.getD_eq_getElem _ _ hk']

theorem State.key_filterMap_norm (s : State) : s.key.filterMap norm = s.letters := by
  simp [State.key, State.letters, State.klen, List.filterMap_map]

/-! ### The invariant under each kind of update -/

namespace State

variable {s : State} {p : Config.Params}

/-- The invariant does not read the registers, the text length, the column count, the host's list or the read data,
and of MA, MR, TBUF and OBUF it says only that they are in canonical form. -/
theorem Inv.update (hI : s.Inv p) {x : Vector Word 8} {tlen tcols : Word} {ma mr : Memory 32} {tbuf obuf : Memory 8}
    {host : List Transaction} {rdata : Option Word}
    (hma : Memory.wf Config.matrixCells ma = true) (hmr : Memory.wf Config.matrixCells mr = true)
    (htbuf : Memory.wf p.tcap tbuf = true) (hobuf : Memory.wf p.tcap obuf = true) :
    ({ s with x := x, TLEN := tlen, TCOLS := tcols, MA := ma, MR := mr, TBUF := tbuf, OBUF := obuf, host := host,
              rdata := rdata } : State).Inv p :=
  { hI with ma := hma, mr := hmr, tbuf := htbuf, obuf := hobuf }

/-- The invariant holds after reset, whatever the parameters. -/
theorem reset_inv (p : Config.Params) : State.reset.Inv p where
  ma := rfl
  mr := rfl
  ksq := rfl
  kbuf := rfl
  tbuf := rfl
  obuf := rfl
  reserved b _ := by simp [State.reset]
  code := by decide
  codeRange := by decide
  quiet _ := ⟨rfl, rfl⟩
  faulting h := absurd h (by decide)
  square h := absurd h (by decide)

/-- The writes of a command that commits keep the invariant. -/
theorem Inv.commit (hI : s.Inv p) {i : Instr} {t : State} (h : verdict i s p = .commit t) : t.Inv p := by
  obtain ⟨-, rfl⟩ | ⟨x, rfl, -⟩ | ⟨n, q, -, hn, -, rfl⟩ | ⟨-, hk, rfl⟩ | ⟨-, hL, f, rfl⟩ := commit_cases h
  · exact hI.endFault
  · exact hI.update hI.ma hI.mr hI.tbuf hI.obuf
  · have hcells : n * n ≤ Config.matrixCells := Nat.mul_le_mul hn hn
    exact hI.update hI.ma (Memory.wf_fill _ _ _ hI.mr hcells) hI.tbuf hI.obuf
  · exact hI.setSquare hk s.builtSquare (wf_builtSquare hI.ksq) fun _ => read_builtSquare hI.ksq
  · exact hI.update hI.ma hI.mr hI.tbuf (Memory.wf_fill _ _ _ hI.obuf hL)

end State

/-! ### The invariant along a step of any unit -/

section
variable {s t : State}

theorem execAt_keeps_inv {p : Config.Params} (hI : s.Inv p) {i : Instr} (hwf : i.wellFormed = true)
    (h : execAt p i s = .next t) : t.Inv p := by
  obtain hc | ⟨c, info, hr, rfl⟩ := execAt_cases h
  · exact hI.commit hc
  · have hc : c ≠ .illegalCommand := by rintro rfl; exact verdict_ne_illegal hwf hr
    exact hI.takeFault c info (encode i) (iff_of_false hc fun hn => hn i (decode_encode hwf))

theorem presentTo_keeps_inv {p : Config.Params} (hI : s.Inv p) {w : Word}
    (h : presentTo (execAt p) w s = .next t) : t.Inv p := by
  obtain ⟨-, -, rfl⟩ | ⟨-, ⟨e, he⟩, rfl⟩ | ⟨-, i, hd, hx⟩ := presentTo_cases h
  · exact hI
  · exact hI.takeFault _ _ _ (iff_of_true rfl fun i hi => by rw [he] at hi; cases hi)
  · exact execAt_keeps_inv hI (wellFormed_of_decode hd) hx

variable {b : Build} (hb : b.laidOut)
include hb

/-- A host write of data keeps the invariant if the map shows only cells that exist (spec/20_memory.md R43, R44). -/
theorem hostStore_keeps_inv (hI : s.Inv b.params) (i : Fin 1024) (w : Word) :
    (hostStore i w s b.map).Inv b.params := by
  unfold hostStore
  cases hm : b.map i with
  | klen => exact hI.writeKey s.KBUF w hI.kbuf
  | kbuf c => exact hI.writeKey _ s.KLEN (Memory.wf_write _ hI.kbuf ((hb i c).1 hm))
  | ma c => exact hI.update (Memory.wf_write _ hI.ma c.isLt) hI.mr hI.tbuf hI.obuf
  | tbuf c => exact hI.update hI.ma hI.mr (Memory.wf_write _ hI.tbuf ((hb i c).2.1 hm)) hI.obuf
  | tlen | tcols | x _ => exact hI.update hI.ma hI.mr hI.tbuf hI.obuf
  | cmd | status | fcode | finfo | fcmd | mr _ | ksq _ | obuf _ | reserved => exact hI

theorem transact_keeps_inv (hI : s.Inv b.params) {tr : Transaction} (h : b.transact tr s = .next t) :
    t.Inv b.params := by
  cases tr with
  | reset =>
    have hR := State.reset_inv b.params
    cases h
    exact hR.update hR.ma hR.mr hR.tbuf hR.obuf
  | read i =>
    cases h
    exact hI.update hI.ma hI.mr hI.tbuf hI.obuf
  | write i w =>
    simp only [Build.transact, transactThrough] at h
    split at h
    · exact presentTo_keeps_inv hI h
    · cases h
      exact hostStore_keeps_inv hb hI i w

end

/-- Settles O54: each kind of transaction keeps the invariant, and taking it off the host's list does not touch it. -/
theorem everyBuildKeepsInvariant : Obligations.EveryBuildKeepsInvariant := by
  intro b hb s t hI h
  cases hh : s.host with
  | nil =>
    rw [Build.step, takeNext_nil _ hh] at h
    cases h
    exact hI.update hI.ma hI.mr hI.tbuf hI.obuf
  | cons tr ts =>
    rw [Build.step, takeNext_cons _ hh] at h
    exact transact_keeps_inv hb (hI.update hI.ma hI.mr hI.tbuf hI.obuf) h

end Sys2Proof.Machine
end

section
/-! PROOFS. What the capacities decide, the default build, and that the unit is total (spec/00_scope.md R4, R10). -/

namespace Sys2Proof.Machine

/-! ### The capacities -/

section
variable {p : Config.Params} {s : State}

/-- Within KCAP, PFBUILD fills the square and sets the valid bit (R107). -/
theorem execAt_pfbuild (h : s.klen ≤ p.kcap) :
    execAt p .pfbuild s = .next { s with KSQ := s.builtSquare, STATUS := statusSetKV s.STATUS } := by
  simp only [execAt, verdict, pfbuildVerdict, if_neg (Nat.not_lt.2 h)]
  rfl

/-- Above KCAP, PFBUILD records BadLength (R107). -/
theorem execAt_pfbuild_tooLong (h : p.kcap < s.klen) :
    execAt p .pfbuild s = .next (s.recorded 8 s.KLEN 0x30000000#32) := by
  simp only [execAt, verdict, pfbuildVerdict, if_pos h, State.conclude_raise, State.takeFault_eq_recorded]
  rfl

/-- With the grid's checks passed, TPOSE gathers (R125). -/
theorem execAt_tpose (h : s.gridFault p = none) :
    execAt p .tpose s = .next { s with
      OBUF := Memory.fill s.OBUF s.tlen fun o => Memory.read s.TBUF (transposeIndex s.tlen s.tcols o) } := by
  simp only [execAt, verdict, tposeVerdict, h, State.conclude_commit]

/-- With the grid's checks passed, TINV gathers through π⁻¹ (R126). -/
theorem execAt_tinv (h : s.gridFault p = none) :
    execAt p .tinv s = .next { s with
      OBUF := Memory.fill s.OBUF s.tlen fun i => Memory.read s.TBUF (inverseIndex s.tlen s.tcols i) } := by
  simp only [execAt, verdict, tinvVerdict, h, State.conclude_commit]

/-- With the grid's checks passed and an index below the length, TPIDX delivers the index its `inv` bit selects (R124). -/
theorem execAt_tpidx (h : s.gridFault p = none) (rd : Reg) {rs1 : Reg} (inv : IndexMap) {v : Nat}
    (hv : s.sint rs1 = v) (hlt : v < s.tlen) :
    execAt p (.tpidx rd rs1 inv) s = .next (s.setReg rd (BitVec.ofNat 32 (IndexMap.apply inv s.tlen s.tcols v))) := by
  have hin : ¬ ((v : Int) < 0 ∨ (v : Int) ≥ s.tlen) := by omega
  simp only [execAt, verdict, tpidxVerdict, h, hv, if_neg hin, to32_natCast, Int.toNat_natCast, State.conclude_commit]

/-- A command that begins with the grid's checks records what they find (R123). -/
theorem execAt_gridFault {c : Cause} {info : Word} (h : s.gridFault p = some (c, info)) {i : Instr}
    (hi : i = .tpose ∨ i = .tinv ∨ ∃ rd rs1 inv, i = .tpidx rd rs1 inv) :
    execAt p i s = .next (s.recorded c.code.toNat info (encode i)) := by
  obtain rfl | rfl | ⟨rd, rs1, inv, rfl⟩ := hi <;>
    simp only [execAt, verdict, tposeVerdict, tinvVerdict, tpidxVerdict, h, State.conclude_raise,
      State.takeFault_eq_recorded]

/-- The parameters enter a command only through the two comparisons (R4). -/
theorem execAt_congr {q : Config.Params} (hk : s.klen ≤ p.kcap ↔ s.klen ≤ q.kcap)
    (ht : s.tlen ≤ p.tcap ↔ s.tlen ≤ q.tcap) (i : Instr) : execAt p i s = execAt q i s := by
  have hkey : s.klen > p.kcap ↔ s.klen > q.kcap := by simpa using not_congr hk
  have htext : s.tlen > p.tcap ↔ s.tlen > q.tcap := by simpa using not_congr ht
  have hgrid : s.gridFault p = s.gridFault q := by simp only [State.gridFault, htext]
  cases i with
  | pfbuild => simp only [execAt, verdict, pfbuildVerdict, hkey]
  | tpidx rd rs1 inv => simp only [execAt, verdict, tpidxVerdict, hgrid]
  | tpose => simp only [execAt, verdict, tposeVerdict, hgrid]
  | tinv => simp only [execAt, verdict, tinvVerdict, hgrid]
  | clrf | mod | gcd | modinv | mdet | madj | minv | pfpos | pfpair => rfl

/-- The square PFBUILD leaves: the key's letters at their first occurrence, then the unused letters in order (R107). -/
theorem squareList_of_builtSquare {t : State} (h : Memory.wf Config.squareCells s.KSQ = true)
    (ht : t.KSQ = s.builtSquare) : t.squareList = s.letters.eraseDups ++
      (List.range 26).filter fun v => decide (v ≠ 9) && decide (v ∉ s.letters) := by
  have hcells : ∀ k < 25, (Memory.read t.KSQ k).toNat = (buildSquare s.key).getD k 0 := fun k hk =>
    ht ▸ State.read_builtSquare h hk
  rw [State.squareList_eq (buildSquare_length s.key) hcells, buildSquare_eq, s.key_filterMap_norm, alphabet,
    List.filter_filter]
  refine congrArg _ (List.filter_congr fun v _ => ?_)
  simp [Bool.and_comm, bne, Bool.beq_eq_decide_eq]

end

/-- Settles O52: one lemma per command within its bound, one per fault above it, and `execAt_congr`. -/
theorem capacitiesBoundLengths : Obligations.CapacitiesBoundLengths := by
  intro p s
  have grid (hL : s.TLEN.toNat ≤ p.tcap) (hk : 1 ≤ s.TCOLS.toNat) : s.gridFault p = none :=
    (s.gridFault_eq_none_iff p).2 ⟨hL, hk⟩
  refine ⟨fun hwf hK => ?pfbuild, execAt_pfbuild_tooLong, fun hwf hL hk => ⟨?tpose, ?tinv⟩,
    fun hL hk rd rs1 v hv hlt => ⟨?tpidx, ?tpidxInverse⟩, fun hL => ?tooLong,
    fun q hK hT => execAt_congr hK hT⟩
  case pfbuild =>
    have hx := execAt_pfbuild hK
    have hsq := fun t => squareList_of_builtSquare (t := t) hwf
    -- the square stays a variable, or `rfl` would compute its 25 cells
    generalize s.builtSquare = sq at hx hsq
    exact ⟨_, hx, rfl, hsq _ rfl⟩
  case tpose =>
    have hs := ((Memory.wf_iff _ _).1 hwf).1
    refine ⟨_, execAt_tpose (grid hL hk), rfl, fun o ho => ?_, fun a ha => ?_⟩
    · exact (Memory.read_fill _ _ _ _ hs).trans (if_pos ho)
    · exact (Memory.read_fill _ _ _ _ hs).trans (if_neg (Nat.not_lt.2 ha))
  case tinv =>
    have hs := ((Memory.wf_iff _ _).1 hwf).1
    refine ⟨_, execAt_tinv (grid hL hk), rfl, fun o ho => ?_, fun a ha => ?_⟩
    · refine (Memory.read_fill _ _ _ _ hs).trans ((if_pos (transposeIndex_lt _ hk ho)).trans ?_)
      exact congrArg _ (inverseIndex_transposeIndex _ hk ho)
    · exact (Memory.read_fill _ _ _ _ hs).trans (if_neg (Nat.not_lt.2 ha))
  case tpidx => exact execAt_tpidx (grid hL hk) rd .forward hv hlt
  case tpidxInverse =>
    exact ⟨_, inverseIndex_lt _ hk hlt, transposeIndex_inverseIndex _ hk hlt,
      execAt_tpidx (grid hL hk) rd .inverse hv hlt⟩
  case tooLong =>
    have hg := State.gridFault_length hL
    exact ⟨execAt_gridFault hg (.inl rfl), execAt_gridFault hg (.inr (.inl rfl)),
      fun rd rs1 inv => execAt_gridFault hg (.inr (.inr ⟨rd, rs1, inv, rfl⟩))⟩

/-! ### The unit is total (spec/00_scope.md R10; spec/70_reset_and_hazards.md R171) -/

/-- A command answers a next state whether it commits or raises. -/
theorem exec_next (i : Instr) (s : State) : ∃ t, exec i s = .next t := by
  rw [exec_eq_conclude]
  cases verdict i s with
  | commit t => exact ⟨t, rfl⟩
  | raise c info => exact ⟨_, rfl⟩

theorem presentCommand_next (w : Word) (s : State) : ∃ t, presentCommand w s = .next t := by
  unfold presentCommand presentTo
  split
  · exact ⟨s, rfl⟩
  · split
    · exact ⟨_, rfl⟩
    · exact exec_next _ s

theorem transact_next (tr : Transaction) (s : State) : ∃ t, transact tr s = .next t := by
  cases tr with
  | reset | read _ => exact ⟨_, rfl⟩
  | write i w =>
    by_cases hi : i.val = 0
    · obtain rfl : i = 0 := Fin.ext hi
      exact transact_write_cmd w s ▸ presentCommand_next w s
    · exact ⟨_, transact_write_data hi w s⟩

/-- Settles O48: a step idles or performs a transaction, and each kind of transaction completes. -/
theorem everyStepAnswersNext : Obligations.EveryStepAnswersNext := by
  refine ⟨fun s => ?_, exec_next⟩
  cases h : s.host with
  | nil => exact ⟨_, step_nil h⟩
  | cons tr ts => exact step_cons h ▸ transact_next tr _

/-! ### The default build (spec/00_scope.md R4) -/

theorem controlWord_no_buffer (i : Fin 1024) (c : Nat) :
    controlWord i ≠ .kbuf c ∧ controlWord i ≠ .tbuf c ∧ controlWord i ≠ .obuf c := by
  unfold controlWord
  split <;> simp

/-- The map of R41 shows only cells that the unit with the default capacities has. -/
theorem defaultBuild_laidOut : ({} : Build).laidOut := by
  intro i c
  show (windowWord i = .kbuf c → c < 64) ∧ (windowWord i = .tbuf c → c < 256) ∧ (windowWord i = .obuf c → c < 256)
  rcases windowWord_cases i with ⟨-, e⟩ | ⟨_, -, e⟩ | ⟨_, -, e⟩ | ⟨_, -, e⟩ | ⟨_, -, e⟩ | ⟨k, -, e⟩ | ⟨k, -, e⟩ |
    ⟨k, -, e⟩ | ⟨-, e⟩ <;> rw [e]
  · simp [controlWord_no_buffer i c]
  · simp
  · simp
  · simp
  · simp
  · simpa using fun h : k.val = c => h ▸ k.isLt
  · simpa using fun h : k.val = c => h ▸ k.isLt
  · simpa using fun h : k.val = c => h ▸ k.isLt
  · simp

/-- Settles O53: `execAt` at the defaults is `exec`, and the transaction and the step only pass it on. -/
theorem defaultBuildIsTheMachine : Obligations.DefaultBuildIsTheMachine := by
  have htr : ({} : Build).transact = transact := by
    funext tr s
    simp only [Build.transact, transact, execAt_default]
  refine ⟨fun i s => by rw [execAt_default], fun tr s => by rw [htr], fun s => ?_, defaultBuild_laidOut⟩
  rw [Build.step, htr, step]

end Sys2Proof.Machine
end

section
/-! PROOFS. The state: the invariant of the machine, the frame of every command, and reset (spec/10_state.md). -/

namespace Sys2Proof.Machine

/-- Settles O51: the machine is the default build, whose map shows only cells it has, and every such build keeps the
invariant. -/
theorem everyStepKeepsInvariant : Obligations.EveryStepKeepsInvariant := by
  intro s t hI h
  obtain ⟨-, -, hstep, hlaid⟩ := defaultBuildIsTheMachine
  exact everyBuildKeepsInvariant {} hlaid s t hI ((hstep s).trans h)

/-- Settles O35: the five ways a command can commit (`commit_cases`) and the four writes of a fault each leave the
rest of the state as it is. -/
theorem commandWritesOnlyItsDestinations : Obligations.CommandWritesOnlyItsDestinations := by
  intro i s t h
  obtain hc | ⟨c, info, -, rfl⟩ := exec_cases h
  · obtain ⟨-, rfl⟩ | ⟨x, rfl, hx⟩ | ⟨n, q, -, -, hi, rfl⟩ | ⟨rfl, -, rfl⟩ | ⟨hi, -, f, rfl⟩ := commit_cases hc
    · -- CLRF clears bit 0 of STATUS
      refine ⟨by simp, fun _ _ => rfl, fun _ _ => rfl, fun _ => rfl, fun _ _ => rfl, fun b hb _ => ?_⟩
      simp [statusClearF_bit, hb]
    · -- the destination registers
      exact ⟨by simp, hx, fun _ _ => rfl, fun _ => rfl, fun _ _ => rfl, fun _ _ _ => rfl⟩
    · -- MR, by MADJ or MINV
      refine ⟨by simp, fun _ _ => rfl, fun hadj hinv => ?_, fun _ => rfl, fun _ _ => rfl, fun _ _ _ => rfl⟩
      obtain ⟨m, r, rfl, -⟩ | ⟨m, rfl, -⟩ := hi
      · exact absurd rfl (hadj m r)
      · exact absurd rfl (hinv m)
    · -- KSQ and bit 1 of STATUS, by PFBUILD
      refine ⟨by simp, fun _ _ => rfl, fun _ _ => rfl, fun hne => absurd rfl hne, fun _ _ => rfl, fun b _ hb => ?_⟩
      simp [statusSetKV_bit, hb rfl]
    · -- OBUF, by TPOSE or TINV
      exact ⟨by simp, fun _ _ => rfl, fun _ _ => rfl, fun _ => rfl, fun h₁ h₂ => (hi.elim h₁ h₂).elim,
        fun _ _ _ => rfl⟩
  · refine ⟨by simp, fun _ _ => rfl, fun _ _ => rfl, fun _ => rfl, fun _ _ => rfl, fun b hb _ => ?_⟩
    simp [statusSetF_bit, hb]

/-- Settles O42: a reset state has every register 0 and lists no cell. -/
theorem resetClearsEverything : Obligations.ResetClearsEverything := by
  intro s
  refine ⟨{ State.reset with host := s.host }, rfl, fun r => ?_, rfl, rfl, rfl, rfl, rfl, rfl, rfl, fun a => ?_⟩
  · simp [State.reg, State.reset]
  · exact ⟨rfl, rfl, rfl, rfl, rfl, rfl⟩

/-- Settles O50, by the lemma the step of any build rests on. -/
theorem resetSatisfiesInvariant : Obligations.ResetSatisfiesInvariant := State.reset_inv

end Sys2Proof.Machine
end

section
/-! PROOFS. The host window: what a read of each word returns, what a write to it stores, that the words of the window
are independent of each other, and that the host's script is performed in order (spec/20_memory.md R42 to R45, R50). -/

namespace Sys2Proof.Machine

/-! ### A host access depends on the word index only through the map -/

/-- What a host read returns where the map shows `W`. -/
def WindowWord.content (W : WindowWord) (s : State) : Word := hostRead 0 s fun _ => W

/-- The state a host write of `w` leaves where the map shows `W`. -/
def WindowWord.store (W : WindowWord) (w : Word) (s : State) : State := hostStore 0 w s fun _ => W

section
variable {i : Fin 1024} {W : WindowWord}

theorem hostRead_of_map (h : windowWord i = W) (s : State) : hostRead i s = W.content s := h ▸ rfl

/-- A cell is read zero-extended (R42). -/
theorem hostRead_toNat_of_map (h : windowWord i = W) {s : State} {n : Nat} {v : BitVec n}
    (hv : W.content s = v.setWidth 32) (hn : n ≤ 32) : (hostRead i s).toNat = v.toNat := by
  rw [hostRead_of_map h, hv, BitVec.toNat_setWidth_of_le hn]

theorem hostStore_of_map (h : windowWord i = W) (w : Word) (s : State) : hostStore i w s = W.store w s := h ▸ rfl

/-- A host write to a word other than CMD completes as the store of that word (R43). -/
theorem transact_write_of_map (h : windowWord i = W) (hW : W ≠ .cmd) (w : Word) (s : State) :
    transact (.write i w) s = .next (W.store w s) := by
  rw [transact_write_data (fun hi => hW (h ▸ windowWord_eq_cmd.2 hi)), hostStore_of_map h]

end

/-! ### The place of each word in the window (R41) -/

/-- The word index of a row of R41. A reserved word has no index of its own. -/
def WindowWord.index : WindowWord → Nat
  | .cmd => 0
  | .status => 1
  | .fcode => 2
  | .finfo => 3
  | .fcmd => 4
  | .klen => 5
  | .tlen => 6
  | .tcols => 7
  | .x r => 16 + r.val
  | .ma c => 32 + c.val
  | .mr c => 48 + c.val
  | .ksq c => 64 + c.val
  | .kbuf c => 128 + c
  | .tbuf c => 256 + c
  | .obuf c => 512 + c
  | .reserved => 1024

theorem index_controlWord : ∀ i : Fin 8, (controlWord (i.castLE (by omega))).index = i.val := by decide

theorem index_windowWord {i : Fin 1024} (h : windowWord i ≠ .reserved) : (windowWord i).index = i.val := by
  rcases windowWord_cases i with ⟨hi, e⟩ | ⟨_, hi, e⟩ | ⟨_, hi, e⟩ | ⟨_, hi, e⟩ | ⟨_, hi, e⟩ | ⟨_, hi, e⟩ | ⟨_, hi, e⟩ |
    ⟨_, hi, e⟩ | ⟨-, e⟩
  · exact e ▸ index_controlWord ⟨i.val, hi⟩
  iterate 7 exact e ▸ hi.symm
  · exact absurd e h

/-- Two word indices show the same row only if it is a reserved one. -/
theorem windowWord_ne {i j : Fin 1024} (hij : j ≠ i) (h : windowWord i ≠ .reserved) : windowWord j ≠ windowWord i := by
  intro e
  have hj : windowWord j ≠ .reserved := e ▸ h
  exact hij (Fin.ext (by rw [← index_windowWord hj, e, index_windowWord h]))

/-! ### Stores -/

section
variable (W : WindowWord) (w : Word) (s : State)

/-- A host write of data never touches STATUS.F. -/
theorem WindowWord.store_F : (W.store w s).F = s.F := by
  have hF : (statusClearKV s.STATUS).getLsbD 0 = s.F := by
    rw [statusClearKV_bit, State.F]; simp
  cases W with
  | klen | kbuf _ => exact hF
  | _ => rfl

theorem WindowWord.store_host : (W.store w s).host = s.host := by
  cases W <;> rfl

end

/-- The words that ignore a write: the read-only registers and memories, and the reserved words (R43, R45). -/
theorem hostStore_ignored {i : Fin 1024} (h : (1 ≤ i.val ∧ i.val ≤ 4) ∨ (8 ≤ i.val ∧ i.val < 16) ∨
    (24 ≤ i.val ∧ i.val < 32) ∨ (41 ≤ i.val ∧ i.val < 128) ∨ (192 ≤ i.val ∧ i.val < 256) ∨ 512 ≤ i.val)
    (w : Word) (s : State) : hostStore i w s = s := by
  rcases windowWord_cases i with ⟨hi, -⟩ | ⟨_, hi, -⟩ | ⟨_, hi, -⟩ | ⟨_, -, e⟩ | ⟨_, -, e⟩ | ⟨_, hi, -⟩ | ⟨_, hi, -⟩ |
    ⟨_, -, e⟩ | ⟨-, e⟩
  · -- the control words STATUS to FCMD are read-only
    obtain hi | hi | hi | hi : i.val = 1 ∨ i.val = 2 ∨ i.val = 3 ∨ i.val = 4 := by omega
    · obtain rfl : i = 1 := Fin.ext hi
      rfl
    · obtain rfl : i = 2 := Fin.ext hi
      rfl
    · obtain rfl : i = 3 := Fin.ext hi
      rfl
    · obtain rfl : i = 4 := Fin.ext hi
      rfl
  · -- x is written
    omega
  · -- MA is written
    omega
  · -- MR is read-only
    exact hostStore_of_map e w s
  · -- KSQ is read-only
    exact hostStore_of_map e w s
  · -- KBUF is written
    omega
  · -- TBUF is written
    omega
  · -- OBUF is read-only
    exact hostStore_of_map e w s
  · exact hostStore_of_map e w s

/-- A store leaves the content of every other word but STATUS. -/
theorem WindowWord.content_store_of_ne {p : Config.Params} {s : State} (hI : s.Inv p) (w : Word) {V W : WindowWord}
    (hne : V ≠ W) (hstatus : V ≠ .status) : V.content (W.store w s) = V.content s := by
  cases W with
  | klen =>
    cases V with
    | klen => exact absurd rfl hne
    | status => exact absurd rfl hstatus
    | _ => rfl
  | tlen =>
    cases V with
    | tlen => exact absurd rfl hne
    | _ => rfl
  | tcols =>
    cases V with
    | tcols => exact absurd rfl hne
    | _ => rfl
  | x r =>
    cases V with
    | x q => exact (State.reg_setReg s r q w).trans (if_neg fun e => hne (congrArg WindowWord.x e))
    | _ => rfl
  | ma c =>
    cases V with
    | ma d =>
      exact (Memory.read_write _ _ _ _ (Memory.wf_sorted hI.ma)).trans
        (if_neg fun e => hne (congrArg WindowWord.ma (Fin.ext e)))
    | _ => rfl
  | kbuf c =>
    cases V with
    | kbuf d =>
      exact congrArg (BitVec.setWidth 32)
        ((Memory.read_write _ _ _ _ (Memory.wf_sorted hI.kbuf)).trans
          (if_neg fun e => hne (congrArg WindowWord.kbuf e)))
    | status => exact absurd rfl hstatus
    | _ => rfl
  | tbuf c =>
    cases V with
    | tbuf d =>
      exact congrArg (BitVec.setWidth 32)
        ((Memory.read_write _ _ _ _ (Memory.wf_sorted hI.tbuf)).trans
          (if_neg fun e => hne (congrArg WindowWord.tbuf e)))
    | _ => rfl
  | _ => rfl

/-- A byte cell takes the low byte of the word and reads zero-extended. -/
theorem setWidth_lowByte (w : Word) : (w.setWidth 8).setWidth 32 = w &&& 0xFF#32 := by
  apply BitVec.eq_of_toNat_eq
  rw [BitVec.toNat_setWidth_of_le (by decide), BitVec.toNat_setWidth, BitVec.toNat_and]
  exact (Nat.and_two_pow_sub_one_eq_mod w.toNat 8).symm

/-- A read of a byte cell of a canonical memory after a write of it. -/
theorem read_write_lowByte {cap : Nat} {m : Memory 8} (h : Memory.wf cap m = true) (c : Nat) (w : Word) :
    (Memory.read (Memory.write m c (w.setWidth 8)) c).setWidth 32 = w &&& 0xFF#32 := by
  rw [Memory.read_write _ _ _ _ (Memory.wf_sorted h), if_pos rfl, setWidth_lowByte]

/-- The contents of a canonical byte memory after a host write, the low byte as a field of the word. -/
theorem read_write_field {cap : Nat} {m : Memory 8} (h : Memory.wf cap m = true) (c : Nat) (w : Word) (a : Nat) :
    Memory.read (Memory.write m c (w.setWidth 8)) a = if a = c then w.extractLsb' 0 8 else Memory.read m a := by
  rw [Memory.read_write _ _ _ _ (Memory.wf_sorted h), BitVec.setWidth_eq_extractLsb' (by decide)]

/-! ### The window's obligations -/

/-- Settles O44: each row of the map, and the content of the word it shows. -/
theorem hostReadReturnsWindowWord : Obligations.HostReadReturnsWindowWord := by
  intro s
  refine ⟨fun _ => rfl, rfl, rfl, rfl, rfl, rfl, rfl, rfl, rfl, fun i => ⟨fun r hr => ?x, fun c hc h => ?ma,
    fun c hc h => ?mr, fun c hc h => ?ksq, fun c hc h => ?kbuf, fun c hc h => ?tbuf, fun c hc h => ?obuf,
    fun h => hostRead_of_map (windowWord_reserved h) s⟩⟩
  case x => exact hostRead_of_map (windowWord_x hr) s
  case ma => exact hostRead_of_map (windowWord_ma (c := ⟨c, hc⟩) h) s
  case mr => exact hostRead_of_map (windowWord_mr (c := ⟨c, hc⟩) h) s
  case ksq => exact hostRead_toNat_of_map (windowWord_ksq (c := ⟨c, hc⟩) h) rfl (by decide)
  case kbuf => exact hostRead_toNat_of_map (windowWord_kbuf (c := ⟨c, hc⟩) h) rfl (by decide)
  case tbuf => exact hostRead_toNat_of_map (windowWord_tbuf (c := ⟨c, hc⟩) h) rfl (by decide)
  case obuf => exact hostRead_toNat_of_map (windowWord_obuf (c := ⟨c, hc⟩) h) rfl (by decide)

/-- Settles O45: a write to CMD is a command, and any other write is the store of the word the map shows. -/
theorem hostWriteStoresOperand : Obligations.HostWriteStoresOperand := by
  intro w s
  refine ⟨transact_write_cmd w s, transact_write_data (by decide) w s, transact_write_data (by decide) w s,
    transact_write_data (by decide) w s, fun i => ⟨fun r hr => ?x, fun c hc h hwf => ?ma, fun c hc h hwf => ?kbuf,
    fun c hc h hwf => ?tbuf, fun h => ?ignored⟩⟩
  case x => exact transact_write_of_map (windowWord_x hr) nofun w s
  case ma =>
    exact ⟨_, transact_write_of_map (windowWord_ma (c := ⟨c, hc⟩) h) nofun w s,
      fun a => Memory.read_write s.MA c a w (Memory.wf_sorted hwf)⟩
  case kbuf =>
    exact ⟨_, transact_write_of_map (windowWord_kbuf (c := ⟨c, hc⟩) h) nofun w s, read_write_field hwf c w⟩
  case tbuf =>
    exact ⟨_, transact_write_of_map (windowWord_tbuf (c := ⟨c, hc⟩) h) nofun w s, read_write_field hwf c w⟩
  case ignored => rw [transact_write_data (by omega), hostStore_ignored h]

/-- Settles O46: what each stored word reads as, and that distinct word indices show distinct words unless the store
is to a reserved one, which ignores it. -/
theorem windowReadAfterWrite : Obligations.WindowReadAfterWrite := by
  intro s i w hI _
  refine ⟨fun h => ?word, fun h => ?byte, fun j hji hj => ?other, ?flag⟩
  case word =>
    obtain h | h | h | h | h := h
    · obtain rfl : i = 5 := Fin.ext h
      rfl
    · obtain rfl : i = 6 := Fin.ext h
      rfl
    · obtain rfl : i = 7 := Fin.ext h
      rfl
    · have e : windowWord i = .x ⟨i.val - 16, by omega⟩ := windowWord_x (by simp only; omega)
      rw [hostRead_of_map e, hostStore_of_map e]
      exact State.reg_setReg_self _ _ _
    · have e : windowWord i = .ma ⟨i.val - 32, by omega⟩ := windowWord_ma (by simp only; omega)
      rw [hostRead_of_map e, hostStore_of_map e]
      exact (Memory.read_write _ _ _ _ (Memory.wf_sorted hI.ma)).trans (if_pos rfl)
  case byte =>
    obtain h | h := h
    · have e := windowWord_kbuf (i := i) (c := ⟨i.val - 128, by omega⟩) (by simp only; omega)
      rw [hostRead_of_map e, hostStore_of_map e]
      exact read_write_lowByte hI.kbuf _ w
    · have e := windowWord_tbuf (i := i) (c := ⟨i.val - 256, by omega⟩) (by simp only; omega)
      rw [hostRead_of_map e, hostStore_of_map e]
      exact read_write_lowByte hI.tbuf _ w
  case other =>
    by_cases hres : windowWord i = .reserved
    · exact congrArg (hostRead j) (hostStore_of_map hres w s)
    · have hstatus : windowWord j ≠ .status := by
        intro e
        have hidx := index_windowWord (i := j) (by rw [e]; nofun)
        rw [e] at hidx
        exact hj hidx.symm
      rw [hostRead_of_map rfl, hostStore_of_map rfl, hostRead_of_map rfl]
      exact WindowWord.content_store_of_ne hI w (windowWord_ne hji hres) hstatus
  case flag =>
    rw [hostStore_of_map rfl]
    exact WindowWord.store_F _ w s

/-! ### The host's script (R50) -/

theorem presentCommand_host {w : Word} {s t : State} (h : presentCommand w s = .next t) : t.host = s.host := by
  obtain ⟨-, -, rfl⟩ | ⟨-, -, rfl⟩ | ⟨-, i, -, hx⟩ := presentCommand_cases h
  · rfl
  · rfl
  · obtain ⟨⟨-, -, -, -, -, -, hhost, -⟩, -⟩ := commandWritesOnlyItsDestinations i s t hx
    exact hhost

/-- No transaction touches the host's list of the transactions still to come. -/
theorem transact_host {tr : Transaction} {s t : State} (h : transact tr s = .next t) : t.host = s.host := by
  cases tr with
  | reset | read _ =>
    cases h
    rfl
  | write i w =>
    by_cases hi : i.val = 0
    · obtain rfl : i = 0 := Fin.ext hi
      exact presentCommand_host h
    · rw [transact_write_data hi, hostStore_of_map rfl] at h
      cases h
      exact WindowWord.store_host _ w s

theorem run_succ_of_step {M : Host.Core} {s t : M.State} (h : M.step s = .next t) (k : Nat) :
    M.run (k + 1) s = M.run k t := by
  simp only [Host.Core.run, h]

/-- One step for each of `ts` performs them in order and leaves the later transactions pending; any further steps run
from the state so reached. -/
theorem run_performs (ts us : List Transaction) (s : State) (h : s.host = ts ++ us) :
    ∃ t, Performs ts s t ∧ t.host = us ∧
      ∀ k, Host.Core.run Sys2Proof.core (ts.length + k) s = Host.Core.run Sys2Proof.core k t := by
  induction ts generalizing s with
  | nil => exact ⟨s, .done s, h, fun k => by rw [List.length_nil, Nat.zero_add]⟩
  | cons tr ts ih =>
    obtain ⟨t, ht⟩ := transact_next tr (idle { s with host := ts ++ us })
    obtain ⟨u, hperf, hu, hrun⟩ := ih t (transact_host ht)
    refine ⟨u, .next tr ts (ts ++ us) s t u h ht hperf, hu, fun k => ?_⟩
    rw [List.length_cons, Nat.add_right_comm]
    exact (run_succ_of_step ((step_cons h).trans ht) _).trans (hrun k)

/-- Settles O49: a step takes the first pending transaction, and `run_performs` at no further steps and at one for
each later transaction. -/
theorem scriptCompletesInOrder : Obligations.ScriptCompletesInOrder := by
  refine ⟨fun s h => step_nil h, fun s tr us h => step_cons h, fun ts us s h => ?_⟩
  obtain ⟨t, hperf, ht, hrun⟩ := run_performs ts us s h
  exact ⟨t, hperf, ht, hrun 0, hrun us.length⟩

end Sys2Proof.Machine
end

section
/-! PROOFS. The encoding: the rows of the opcode map are disjoint, which words decode, and decoding and encoding undo
each other (spec/30_encoding.md R61 to R66, R68). -/

namespace Sys2Proof

/-! ### The rows of the opcode map (R63) -/

/-- "every mask covers bits 31:24" (R63): a word that matches a row carries that row's opcode. -/
theorem opcodeField_of_match {r : Row} (hr : r ∈ opcodeTable) {w : Word} (h : w &&& r.mask = r.pattern) :
    opcodeField w = opcodeField r.pattern := by
  have hmask : ∀ r ∈ opcodeTable, r.mask.extractLsb' 24 8 = BitVec.allOnes 8 := by decide
  exact BitVec.eq_of_toNat_eq (masked_field h 24 8 (hmask r hr))

/-- "the opcode fields differ pairwise" (R63). -/
theorem row_eq_of_opcodeField_eq : ∀ r ∈ opcodeTable, ∀ r' ∈ opcodeTable,
    opcodeField r.pattern = opcodeField r'.pattern → r = r' := by decide

theorem row_unique {w : Word} {r r' : Row} (hr : r ∈ opcodeTable) (hr' : r' ∈ opcodeTable)
    (h : w &&& r.mask = r.pattern) (h' : w &&& r'.mask = r'.pattern) : r = r' :=
  row_eq_of_opcodeField_eq r hr r' hr' ((opcodeField_of_match hr h).symm.trans (opcodeField_of_match hr' h'))

theorem Row.accepts_iff (r : Row) (w : Word) : r.accepts w = true ↔ w &&& r.mask = r.pattern := by
  simp [Row.accepts]

theorem match_of_find? {w : Word} {r : Row} (h : opcodeTable.find? (fun r => r.accepts w) = some r) :
    r ∈ opcodeTable ∧ w &&& r.mask = r.pattern :=
  ⟨List.mem_of_find?_eq_some h, (r.accepts_iff w).1 (List.find?_some (p := (Row.accepts · w)) h)⟩

/-- Rows being disjoint, the decoder finds a row that matches wherever it stands in the map. -/
theorem find?_of_match {w : Word} {r : Row} (hr : r ∈ opcodeTable) (h : w &&& r.mask = r.pattern) :
    opcodeTable.find? (fun r => r.accepts w) = some r := by
  have hsome : (opcodeTable.find? fun r => r.accepts w).isSome := List.find?_isSome.2 ⟨r, hr, (r.accepts_iff w).2 h⟩
  obtain ⟨r', hf⟩ := Option.isSome_iff_exists.1 hsome
  obtain ⟨hr', h'⟩ := match_of_find? hf
  rw [hf, row_unique hr hr' h h']

/-! ### What decodes -/

/-- The decoder, said once: a word decodes to the operands its row reads, if these make a well-formed command. -/
theorem decode_eq_ok_iff {w : Word} {i : Instr} : decode w = .ok i ↔
    ∃ r ∈ opcodeTable, w &&& r.mask = r.pattern ∧ r.op.operands w = i ∧ i.wellFormed = true := by
  constructor
  · intro hd
    have hwf := wellFormed_of_decode hd
    unfold decode at hd
    split at hd
    · split at hd <;> cases hd
    · rename_i r hf
      obtain ⟨hr, h⟩ := match_of_find? hf
      split at hd <;> cases hd
      exact ⟨r, hr, h, rfl, hwf⟩
  · rintro ⟨r, hr, h, rfl, hwf⟩
    simp only [decode, find?_of_match hr h, hwf, if_true]

/-- The single extra test of R66, on the row's name. -/
theorem wellFormed_operands_iff (o : Op) (w : Word) : (o.operands w).wellFormed = true ↔
    ¬ ((o = .pfpos ∨ o = .pfpair) ∧ rdField w = rs2Field w) := by
  cases o <;> simp [Op.operands, Instr.wellFormed]

/-- The two rows with two destinations are those of the opcodes 0x31 and 0x32 (R63, R66). -/
theorem twoDestinations_iff_opcode : ∀ r ∈ opcodeTable,
    (r.op = .pfpos ∨ r.op = .pfpair) ↔ (opcodeField r.pattern = 0x31#8 ∨ opcodeField r.pattern = 0x32#8) := by
  decide

theorem rdField_eq_rs2Field_iff (w : Word) : rdField w = rs2Field w ↔ w.extractLsb' 21 3 = w.extractLsb' 15 3 := by
  rw [rdField, rs2Field, BitVec.toFin_inj]

/-- The extra test of R66 as the spec words it, on the opcode of a word that matches a row. -/
theorem wellFormed_operands_iff_of_match {r : Row} (hr : r ∈ opcodeTable) {w : Word} (h : w &&& r.mask = r.pattern) :
    (r.op.operands w).wellFormed = true ↔
      ¬ ((w.extractLsb' 24 8 = 0x31#8 ∨ w.extractLsb' 24 8 = 0x32#8) ∧ w.extractLsb' 21 3 = w.extractLsb' 15 3) := by
  have hop : w.extractLsb' 24 8 = opcodeField r.pattern := opcodeField_of_match hr h
  rw [wellFormed_operands_iff, twoDestinations_iff_opcode r hr, rdField_eq_rs2Field_iff, hop]

/-! ### Encoding what was decoded -/

/-- The `f` bit a command's mode is read from is the bit that mode is encoded as (R62). -/
theorem fBit_eq_bit {α : Type} (bit : α → Nat) {one zero : α} (h1 : bit one = 1) (h0 : bit zero = 0) (w : Word) :
    (w.extractLsb' 12 1).toNat = bit (if fField w then one else zero) := by
  rw [fBit_eq, apply_ite bit, h1, h0]

/-- Every field of a matching word is either one its row reads, or under the row's mask and so the pattern's (R64). -/
theorem encode_operands : ∀ r ∈ opcodeTable, ∀ w : Word, w &&& r.mask = r.pattern →
    encode (r.op.operands w) = w := by
  simp only [opcodeTable, List.cons_append, List.nil_append, List.forall_mem_cons]
  refine ⟨?clrf, ?mod, ?gcd, ?modinv, ?mdet, ?madj, ?minv, ?pfbuild, ?pfpos, ?pfpair, ?tpidx, ?tpose, ?tinv,
    List.forall_mem_nil _⟩
  case clrf | pfbuild | tpose | tinv => exact fun w h => h.symm.trans BitVec.and_allOnes
  case mod | gcd | modinv | pfpos =>
    exact fun w h => assemble_fields (masked_field h 24 8 rfl) rfl rfl rfl (masked_field h 13 2 rfl)
      (masked_field h 12 1 rfl) (masked_field h 0 12 rfl)
  case mdet =>
    exact fun w h => assemble_fields (masked_field h 24 8 rfl) rfl (masked_field h 18 3 rfl) (masked_field h 15 3 rfl)
      rfl (fBit_eq_bit ResultForm.bit rfl rfl w) (masked_field h 0 12 rfl)
  case madj =>
    exact fun w h => assemble_fields (masked_field h 24 8 rfl) (masked_field h 21 3 rfl) (masked_field h 18 3 rfl)
      (masked_field h 15 3 rfl) rfl (fBit_eq_bit ResultForm.bit rfl rfl w) (masked_field h 0 12 rfl)
  case minv =>
    exact fun w h => assemble_fields (masked_field h 24 8 rfl) (masked_field h 21 3 rfl) (masked_field h 18 3 rfl)
      (masked_field h 15 3 rfl) rfl (masked_field h 12 1 rfl) (masked_field h 0 12 rfl)
  case pfpair =>
    exact fun w h => assemble_fields (masked_field h 24 8 rfl) rfl (masked_field h 18 3 rfl) rfl
      (masked_field h 13 2 rfl) (fBit_eq_bit Direction.bit rfl rfl w) (masked_field h 0 12 rfl)
  case tpidx =>
    exact fun w h => assemble_fields (masked_field h 24 8 rfl) rfl rfl (masked_field h 15 3 rfl)
      (masked_field h 13 2 rfl) (fBit_eq_bit IndexMap.bit rfl rfl w) (masked_field h 0 12 rfl)

/-! ### The encoding's obligations -/

/-- Settles O38, by the row that accepts a command's word and the operands it reads there. -/
theorem decodeOfEncodeIsIdentity : Obligations.DecodeOfEncodeIsIdentity := fun _ => decode_encode

/-- Settles O39: the fields a row reads and the fields its mask fixes are the whole word. -/
theorem encodeOfDecodeIsIdentity : Obligations.EncodeOfDecodeIsIdentity := by
  intro w i hd
  obtain ⟨r, hr, h, rfl, hwf⟩ := decode_eq_ok_iff.1 hd
  exact ⟨encode_operands r hr w h, hwf⟩

/-- Settles O36: the opcode of a word names its row. -/
theorem opcodeRowsAreDisjoint : Obligations.OpcodeRowsAreDisjoint :=
  ⟨rfl, fun _ _ _ hr hr' h h' => row_unique hr hr' h h'⟩

/-- Settles O37: each field is a quotient and a remainder of the sum of R63, as the fields below it do not reach it. -/
theorem commandWordFieldsSitInPlace : Obligations.CommandWordFieldsSitInPlace := by
  intro opcode rd rs1 rs2 n f ho h1 h2 h3 h4 h5
  simp only [extract_toNat, assemble_toNat ho h1 h2 h3 h4 h5]
  refine ⟨?_, ?_, ?_, ?_, ?_, ?_, ?_⟩ <;> omega

/-- Settles O40: the decoder's match finds a row, and its extra test is that of R66. -/
theorem wordDecodesExactlyWhenLegal : Obligations.WordDecodesExactlyWhenLegal := by
  intro w
  constructor
  · rintro ⟨i, hd⟩
    obtain ⟨r, hr, h, rfl, hwf⟩ := decode_eq_ok_iff.1 hd
    exact ⟨⟨r, hr, h⟩, (wellFormed_operands_iff_of_match hr h).1 hwf⟩
  · rintro ⟨⟨r, hr, h⟩, hne⟩
    exact ⟨_, decode_eq_ok_iff.2 ⟨r, hr, h, rfl, (wellFormed_operands_iff_of_match hr h).2 hne⟩⟩

/-- Settles O41: each word of the table is its command's encoding, so `decode_encode` gives the command back. -/
theorem exampleWordsDecode : Obligations.ExampleWordsDecode :=
  ⟨decode_encode (i := .clrf) rfl, decode_encode (i := .mod 2 0 1) rfl, decode_encode (i := .gcd 2 0 1) rfl,
    decode_encode (i := .modinv 3 0 1) rfl, decode_encode (i := .mdet 4 2 .exact) rfl,
    decode_encode (i := .mdet 4 3 .reduced) rfl, decode_encode (i := .madj 3 .exact) rfl,
    decode_encode (i := .madj 2 .reduced) rfl, decode_encode (i := .minv 2) rfl, decode_encode (i := .pfbuild) rfl,
    decode_encode (i := .pfpos 1 2 0) rfl, decode_encode (i := .pfpair 0 1 .encrypt) rfl,
    decode_encode (i := .pfpair 0 1 .decrypt) rfl, decode_encode (i := .tpidx 1 0 .forward) rfl,
    decode_encode (i := .tpidx 1 0 .inverse) rfl, decode_encode (i := .tpose) rfl, decode_encode (i := .tinv) rfl⟩

end Sys2Proof

namespace Sys2Proof.Machine

/-! ### A write to CMD (R65, R70) -/

/-- With no fault recorded, a word that decodes to no command records IllegalCommand(0) (R65). -/
theorem presentCommand_undecodable {w : Word} {s : State} (hF : s.F = false) (hd : ∀ i, decode w ≠ .ok i) :
    presentCommand w s = .next (s.recorded 1 0#32 w) := by
  cases he : decode w with
  | error e => exact presentCommand_illegal (.inl hF) he
  | ok i => exact absurd he (hd i)

/-- Settles O33: the gate, the illegal word and the command, by the lemma for each. -/
theorem commandWriteDispatch : Obligations.CommandWriteDispatch := by
  refine fun w s => ⟨fun _ hw => ?clrf, presentCommand_gated, presentCommand_undecodable,
    fun i hF hd => presentCommand_command (.inl hF) hd⟩
  case clrf => exact presentCommand_command (.inr hw) (hw ▸ decode_encode (i := .clrf) rfl)

/-- Settles O31: neither kind of word decodes (R66), and a word that does not decode records IllegalCommand(0). -/
theorem illegalWordIsRecorded : Obligations.IllegalWordIsRecorded := by
  intro w s hF hw
  refine presentCommand_undecodable hF fun i hd => ?_
  obtain ⟨⟨r, hr, h⟩, hne⟩ := (wordDecodesExactlyWhenLegal w).1 ⟨i, hd⟩
  obtain hno | ⟨hop, heq⟩ := hw
  · exact hno r hr h
  · have hpos : (⟨.pfpos, 0x31000000#32, 0xFF007FFF#32⟩ : Row) ∈ opcodeTable := by decide
    have hpair : (⟨.pfpair, 0x32000000#32, 0xFF1C6FFF#32⟩ : Row) ∈ opcodeTable := by decide
    exact hne ⟨hop.imp (opcodeField_of_match hpos) (opcodeField_of_match hpair), heq⟩

/-- A step takes the transaction off the host's list and presents its word, which the decoder gives a meaning. -/
theorem step_command {s : State} {w : Word} {i : Instr} {ts : List Transaction} (hF : s.F = false)
    (hd : decode w = .ok i) (hh : s.host = .write 0 w :: ts) : step s = exec i { s with host := ts, rdata := none } :=
  (step_cons hh).trans (presentCommand_command (.inl hF) hd)

theorem withFetchWord_host (s : State) (w : Word) : (s.withFetchWord 32 w.toNat).host = .write 0 w :: s.host := by
  rw [State.withFetchWord, State.withCommand_host, Nat.mod_eq_of_lt w.isLt, BitVec.ofNat_toNat, BitVec.setWidth_eq]

/-- Settles O47: the word placed by `withFetchWord` is the next transaction, like any other write to CMD. -/
theorem stepRunsDecodedCommand : Obligations.StepRunsDecodedCommand := by
  intro s w i hF hd
  exact ⟨fun _ => step_command hF hd, step_command (s := s.withFetchWord 32 w.toNat) hF hd (withFetchWord_host s w)⟩

end Sys2Proof.Machine
end

section
/-! PROOFS. The modular arithmetic commands MOD, GCD and MODINV, and what a failed search for an inverse leaves
(spec/40_modular.md R80 to R85). -/

namespace Sys2Proof.Machine

/-! ### Patterns of results, inverses and coprimality -/

/-- A result between 0 and an operand has a pattern (R83). -/
theorem toInt_to32_of_le_sint {s : State} {r : Reg} {z : Int} (h0 : 0 ≤ z) (hz : z ≤ s.sint r) :
    (to32 z).toInt = z :=
  toInt_to32 (by omega) (hz.trans (s.sint_range r).2)

/-- "MODINV delivers a value exactly when GCD of fmod(a, m) and m is 1" (R84), of the search in [1, m) itself. -/
theorem inverse_exists_iff_coprime {a m : Int} (hm : 2 ≤ m) :
    (∃ t, 1 ≤ t ∧ t < m ∧ a * t % m = 1) ↔ Int.gcd (a % m) m = 1 := by
  rw [Int.gcd_emod, ← Int.isCoprime_iff_gcd_eq_one]
  constructor
  · -- t and the quotient of a·t by m are Bézout coefficients
    rintro ⟨t, -, -, ht⟩
    have hdiv := Int.emod_add_mul_ediv (a * t) m
    exact ⟨t, -(a * t / m), by linarith⟩
  · -- the residue of a Bézout coefficient is an inverse
    rintro ⟨u, v, huv⟩
    have hinv : a * (u % m) % m = 1 := by
      calc a * (u % m) % m = a * u % m := fmod_mul_fmod a u m
        _ = (1 - v * m) % m := by rw [← huv]; ring_nf
        _ = 1 := by rw [Int.sub_mul_emod_self_right, Int.emod_eq_of_lt (by omega) (by omega)]
    have hne : u % m ≠ 0 := fun h0 => by simp [h0] at hinv
    have hnonneg := Int.emod_nonneg u (show m ≠ 0 by omega)
    exact ⟨u % m, by omega, Int.emod_lt_of_pos u (by omega), hinv⟩

/-- The end of the Euclidean loop on operands that GCD accepts (R81). -/
theorem euclidLoop_gcd_of_nonneg {a b : Int} (ha : 0 ≤ a) (hb : 0 ≤ b) : EuclidLoop a b (Int.gcd a b) := by
  lift a to Nat using ha
  lift b to Nat using hb
  exact EuclidLoop_gcd a b

/-- The engine's determinant is that of linear algebra, for the sizes the unit has (R91). -/
theorem det_eq_matrix_det {n : Nat} (hn : n = 2 ∨ n = 3) (M : IntMatrix) :
    det n M = (Matrix.of fun i j : Fin n => M i j).det := by
  obtain rfl | rfl := hn
  · simp [det, Matrix.det_fin_two]
  · rw [det_three, Matrix.det_fin_three]
    simp only [Matrix.of_apply, Fin.val_zero, Fin.val_one, Fin.val_two]
    ring

/-! ### What each command comes to, case by case -/

theorem exec_of_commit {i : Instr} {s t : State} (h : verdict i s = .commit t) : exec i s = .next t := by
  rw [exec_eq_conclude, h, State.conclude_commit]

theorem exec_of_raise {i : Instr} {s : State} {c : Cause} {info : Word} (h : verdict i s = .raise c info) :
    exec i s = .next (s.recorded c.code.toNat info (encode i)) := by
  rw [exec_eq_conclude, h, State.conclude_raise, State.takeFault_eq_recorded]

section
variable (rd rs1 rs2 : Reg) (s : State)

theorem exec_mod_of_one_le (hm : 1 ≤ s.sint rs2) :
    exec (.mod rd rs1 rs2) s = .next (s.setReg rd (to32 (s.sint rs1 % s.sint rs2))) :=
  exec_of_commit (if_neg hm.not_gt)

theorem exec_mod_of_lt_one (hm : s.sint rs2 < 1) :
    exec (.mod rd rs1 rs2) s = .next (s.recorded 3 (s.reg rs2) (encode (.mod rd rs1 rs2))) :=
  exec_of_raise (c := .badModulus) (if_pos hm)

theorem exec_gcd_of_nonneg (ha : 0 ≤ s.sint rs1) (hb : 0 ≤ s.sint rs2) :
    exec (.gcd rd rs1 rs2) s = .next (s.setReg rd (to32 (Int.gcd (s.sint rs1) (s.sint rs2)))) := by
  have hgcd : Nat.gcd (s.sint rs1).toNat (s.sint rs2).toNat = Int.gcd (s.sint rs1) (s.sint rs2) :=
    congrArg₂ Nat.gcd (by omega) (by omega)
  rw [← hgcd]
  exact exec_of_commit ((if_neg ha.not_gt).trans (if_neg hb.not_gt))

theorem exec_gcd_of_neg_left (ha : s.sint rs1 < 0) :
    exec (.gcd rd rs1 rs2) s = .next (s.recorded 4 (s.reg rs1) (encode (.gcd rd rs1 rs2))) :=
  exec_of_raise (c := .operandRange) (if_pos ha)

theorem exec_gcd_of_neg_right (ha : 0 ≤ s.sint rs1) (hb : s.sint rs2 < 0) :
    exec (.gcd rd rs1 rs2) s = .next (s.recorded 4 (s.reg rs2) (encode (.gcd rd rs1 rs2))) :=
  exec_of_raise (c := .operandRange) ((if_neg ha.not_gt).trans (if_pos hb))

/-- The search of R82 has at most one result, so any inverse in [1, m) is the one delivered. -/
theorem exec_modinv_of_inverse {t : Int} (h1 : 1 ≤ t) (ht : t < s.sint rs2) (hinv : s.sint rs1 * t % s.sint rs2 = 1) :
    exec (.modinv rd rs1 rs2) s = .next (s.setReg rd (to32 t)) := by
  have hm : 1 ≤ s.sint rs2 := by omega
  have hsearch : modInverse (s.sint rs1) (s.sint rs2) = some t := (modInverse_eq_some_iff hm).2 ⟨h1, ht, hinv⟩
  exact exec_of_commit ((if_neg hm.not_gt).trans (by rw [hsearch]))

theorem exec_modinv_of_no_inverse (hm : 1 ≤ s.sint rs2)
    (hno : ∀ t, 1 ≤ t → t < s.sint rs2 → s.sint rs1 * t % s.sint rs2 ≠ 1) :
    exec (.modinv rd rs1 rs2) s = .next (s.recorded 5 (s.reg rs1) (encode (.modinv rd rs1 rs2))) := by
  have hsearch : modInverse (s.sint rs1) (s.sint rs2) = none := (modInverse_eq_none_iff hm).2 hno
  exact exec_of_raise (c := .noModularInverse) ((if_neg hm.not_gt).trans (by rw [hsearch]))

theorem exec_modinv_of_lt_one (hm : s.sint rs2 < 1) :
    exec (.modinv rd rs1 rs2) s = .next (s.recorded 3 (s.reg rs2) (encode (.modinv rd rs1 rs2))) :=
  exec_of_raise (c := .badModulus) (if_pos hm)

theorem exec_modinv_of_not_coprime (hm : 2 ≤ s.sint rs2) (hgcd : Int.gcd (s.sint rs1 % s.sint rs2) (s.sint rs2) ≠ 1) :
    exec (.modinv rd rs1 rs2) s = .next (s.recorded 5 (s.reg rs1) (encode (.modinv rd rs1 rs2))) :=
  exec_modinv_of_no_inverse rd rs1 rs2 s (by omega) fun t h1 ht hinv =>
    hgcd ((inverse_exists_iff_coprime hm).1 ⟨t, h1, ht, hinv⟩)

/-- MINV searches for the inverse of the residue of the determinant, which has the determinant's inverses (R96). -/
theorem exec_minv_of_no_inverse {n : SizeField} (hn : 2 ≤ n.val)
    (hno : ∀ t, 1 ≤ t → t < 26 → (s.operand n.val).det * t % 26 ≠ 1) :
    exec (.minv n) s = .next (s.recorded 6 (to32 ((s.operand n.val).det % 26)) (encode (.minv n))) := by
  have hdet : det26 n.val (s.matrix n.val) = (s.operand n.val).det % 26 :=
    congrArg (· % 26) (det_eq_matrix_det (by omega) (s.matrix n.val))
  have hsearch : modInverse ((s.operand n.val).det % 26) 26 = none := by
    refine (modInverse_eq_none_iff (by decide)).2 fun t h1 ht => ?_
    rw [mul_comm, ← fmod, fmod_mul_fmod, mul_comm]
    exact hno t h1 ht
  exact exec_of_raise (c := .nonInvertibleMatrix) ((if_neg hn.not_gt).trans (by rw [hdet, hsearch]))

end

/-! ### The obligations -/

/-- Settles O1: the residue of a division has the three properties and, being below m, a pattern. -/
theorem modDeliversNonNegativeResidue : Obligations.ModDeliversNonNegativeResidue := by
  refine fun rd rs1 rs2 s => ⟨decode_encode (i := .mod rd rs1 rs2) rfl, fun hm => ?_, exec_mod_of_lt_one rd rs1 rs2 s⟩
  obtain ⟨h0, hlt⟩ := fmod_range (s.sint rs1) hm
  exact ⟨_, h0, hlt, Int.dvd_self_sub_emod, toInt_to32_of_le_sint h0 hlt.le, exec_mod_of_one_le rd rs1 rs2 s hm⟩

/-- Settles O2: the loop ends with the greatest common divisor, which is 0 or at most the operand it divides. -/
theorem gcdDeliversGreatestCommonDivisor : Obligations.GcdDeliversGreatestCommonDivisor := by
  refine fun rd rs1 rs2 s => ⟨decode_encode (i := .gcd rd rs1 rs2) rfl, fun ha hb => ?_,
    exec_gcd_of_neg_left rd rs1 rs2 s, exec_gcd_of_neg_right rd rs1 rs2 s⟩
  have hdvd := Int.gcd_dvd_left (s.sint rs1) (s.sint rs2)
  have hpattern : (to32 (Int.gcd (s.sint rs1) (s.sint rs2))).toInt = Int.gcd (s.sint rs1) (s.sint rs2) := by
    obtain hzero | hpos := ha.eq_or_lt
    · exact toInt_to32_of_le_sint (s := s) (r := rs2) (by omega) (by rw [← hzero, Int.gcd_zero_left]; omega)
    · exact toInt_to32_of_le_sint (s := s) (r := rs1) (by omega) (Int.le_of_dvd hpos hdvd)
  exact ⟨_, euclidLoop_gcd_of_nonneg ha hb, by omega, hdvd, Int.gcd_dvd_right .., fun d => Int.dvd_coe_gcd, hpattern,
    exec_gcd_of_nonneg rd rs1 rs2 s ha hb⟩

/-- Settles O3: the smallest inverse is an inverse. -/
theorem modinvDeliversSmallestInverse : Obligations.ModinvDeliversSmallestInverse :=
  fun rd rs1 rs2 s => ⟨decode_encode (i := .modinv rd rs1 rs2) rfl,
    fun _ t h1 ht hinv _ =>
      ⟨toInt_to32_of_le_sint (by omega) ht.le, exec_modinv_of_inverse rd rs1 rs2 s h1 ht hinv⟩,
    exec_modinv_of_no_inverse rd rs1 rs2 s, exec_modinv_of_lt_one rd rs1 rs2 s⟩

/-- Settles O4: an inverse exists exactly for coprime operands; the table of m = 26 is checked entry by entry. -/
theorem inverseExistsExactlyWhenCoprime : Obligations.InverseExistsExactlyWhenCoprime := by
  refine fun rd rs1 rs2 s => ⟨fun hm hgcd => ?coprime, exec_modinv_of_not_coprime rd rs1 rs2 s, fun hm => ?one,
    fun hm => ⟨fun p hp ha => ?units, fun a hmem ha => ?nonUnits⟩⟩
  case coprime =>
    obtain ⟨t, h1, ht, hinv⟩ := (inverse_exists_iff_coprime hm).2 hgcd
    exact ⟨t, h1, ht, hinv, toInt_to32_of_le_sint (by omega) ht.le, exec_modinv_of_inverse rd rs1 rs2 s h1 ht hinv⟩
  case one => exact exec_modinv_of_no_inverse rd rs1 rs2 s hm.ge fun t h1 ht => by omega
  case units =>
    have htable : 1 ≤ p.2 ∧ p.2 < 26 ∧ p.1 * p.2 % 26 = 1 := by clear ha; revert p; decide
    obtain ⟨h1, ht, hinv⟩ := htable
    exact exec_modinv_of_inverse rd rs1 rs2 s h1 (hm ▸ ht) (by rw [ha, hm, hinv])
  case nonUnits =>
    have hgcd : Int.gcd (a % 26) 26 ≠ 1 := by clear ha; revert a; decide
    exact exec_modinv_of_not_coprime rd rs1 rs2 s (by omega) (by rwa [ha, hm])

/-- Settles O5: a failed search ends in a fault, whose four writes reach neither a register nor MR. -/
theorem failedSearchDeliversNothing : Obligations.FailedSearchDeliversNothing := by
  refine fun rd rs1 rs2 n s => ⟨fun hm hno => ?modinv, fun hn hno => ?minv, fun ha hm hrd => ?thirteen⟩
  case modinv => exact ⟨_, exec_modinv_of_no_inverse rd rs1 rs2 s hm hno, rfl, rfl, rfl⟩
  case minv => exact ⟨_, exec_minv_of_no_inverse s hn hno, rfl, rfl, rfl⟩
  case thirteen =>
    have hgcd : Int.gcd (s.sint rs1 % s.sint rs2) (s.sint rs2) ≠ 1 := by rw [ha, hm]; decide
    exact ⟨_, exec_modinv_of_not_coprime rd rs1 rs2 s (by omega) hgcd, rfl, hrd⟩

end Sys2Proof.Machine
end

section
/-! PROOFS. The matrix commands MDET, MADJ and MINV: the engine and linear algebra, residues mod 26, and what each
command delivers (spec/41_matrix.md R90 to R99). -/

namespace Sys2Proof.Machine

/-! ### The engine and linear algebra (R91 to R93) -/

theorem sign_eq_neg_one_pow (k : Nat) : sign k = (-1) ^ k := by
  obtain hk | hk := k.mod_two_eq_zero_or_one
  · rw [sign_even hk, (Nat.even_iff.2 hk).neg_one_pow]
  · rw [sign_odd hk, (Nat.odd_iff.2 hk).neg_one_pow]

/-- Deleting a row and a column, of the engine's matrix and of Mathlib's. -/
theorem minor_eq_submatrix {m : Nat} (M : IntMatrix) (i j : Fin (m + 1)) :
    (Matrix.of fun r c : Fin m => minor M i j r c) =
      (Matrix.of fun r c : Fin (m + 1) => M r c).submatrix i.succAbove j.succAbove := by
  have hval (p : Fin (m + 1)) (q : Fin m) : (p.succAbove q).val = if q.val < p.val then q.val else q.val + 1 := by
    rw [Fin.succAbove, apply_ite Fin.val]; rfl
  ext r c
  simp only [Matrix.of_apply, Matrix.submatrix_apply, minor, hval]

/-- A cofactor by the engine's own determinant is one of linear algebra when that determinant is. -/
theorem adj_succ_eq_matrix_adjugate {m : Nat} (M : IntMatrix) (i j : Fin (m + 1))
    (hdet : det m (minor M j i) = (Matrix.of fun r c : Fin m => minor M j i r c).det) :
    adj (m + 1) M i j = (Matrix.of fun r c : Fin (m + 1) => M r c).adjugate i j := by
  rw [Matrix.adjugate_fin_succ_eq_det_submatrix, ← minor_eq_submatrix, ← hdet, ← sign_eq_neg_one_pow]
  rfl

/-- The engine's adjugate is that of linear algebra, for the sizes the unit has (R93). -/
theorem adj_eq_matrix_adjugate {n : Nat} (hn : n = 2 ∨ n = 3) (M : IntMatrix) (i j : Fin n) :
    adj n M i j = (Matrix.of fun r c : Fin n => M r c).adjugate i j := by
  obtain rfl | rfl := hn
  · exact adj_succ_eq_matrix_adjugate M i j (by rw [Matrix.det_fin_one]; rfl)
  · exact adj_succ_eq_matrix_adjugate M i j (det_eq_matrix_det (.inl rfl) _)

/-! ### The size of the determinant (R97) -/

theorem State.abs_matrix_le (s : State) (n i j : Nat) : |s.matrix n i j| ≤ 2 ^ 31 := by
  have h1 := BitVec.le_two_mul_toInt (x := Memory.read s.MA (n * i + j))
  have h2 := BitVec.two_mul_toInt_lt (x := Memory.read s.MA (n * i + j))
  rw [abs_le]
  constructor <;> unfold State.matrix <;> omega

theorem State.abs_det_matrix_le (s : State) {n : Nat} (hn : n = 2 ∨ n = 3) :
    |det n (s.matrix n)| ≤ n.factorial * (2 ^ 31) ^ n := by
  rw [det_eq_matrix_det hn]
  simpa using Matrix.det_le (abv := AbsoluteValue.abs) (A := Matrix.of fun i j : Fin n => s.matrix n i j)
    fun i j => s.abs_matrix_le n i j

/-! ### The operand matrix and its residues mod 26 (R90, R98) -/

theorem size_two_or_three {n : SizeField} (hn : 2 ≤ n.val) : n.val = 2 ∨ n.val = 3 := by omega

theorem State.det_matrix (s : State) {n : SizeField} (hn : 2 ≤ n.val) :
    det n.val (s.matrix n.val) = (s.operand n.val).det :=
  det_eq_matrix_det (size_two_or_three hn) (s.matrix n.val)

theorem State.adj_matrix (s : State) {n : SizeField} (hn : 2 ≤ n.val) (i j : Fin n.val) :
    adj n.val (s.matrix n.val) i j = (s.operand n.val).adjugate i j :=
  adj_eq_matrix_adjugate (size_two_or_three hn) (s.matrix n.val) i j

/-- The matrix over ℤ/26ℤ that an integer matrix stands for. -/
def residues {n : Nat} : Matrix (Fin n) (Fin n) Int →+* Matrix (Fin n) (Fin n) (ZMod 26) :=
  (Int.castRingHom (ZMod 26)).mapMatrix

theorem residues_apply {n : Nat} (A : Matrix (Fin n) (Fin n) Int) (i j : Fin n) : residues A i j = (A i j : ZMod 26) :=
  rfl

theorem residues_eq_iff {n : Nat} {A B : Matrix (Fin n) (Fin n) Int} :
    residues A = residues B ↔ ∀ i j, A i j ≡ B i j [ZMOD 26] := by
  simp only [← Matrix.ext_iff, residues_apply, ZMod.intCast_eq_intCast_iff, Nat.cast_ofNat]

/-- `A` is the identity mod 26, entry by entry and as a matrix of residues. -/
theorem residues_eq_one_iff {n : Nat} {A : Matrix (Fin n) (Fin n) Int} :
    residues A = 1 ↔ ∀ i j, A i j % 26 = (1 : Matrix (Fin n) (Fin n) Int) i j := by
  have hone (i j : Fin n) : (1 : Matrix (Fin n) (Fin n) Int) i j % 26 = (1 : Matrix (Fin n) (Fin n) Int) i j := by
    rw [Matrix.one_apply]; split <;> rfl
  rw [← map_one residues, residues_eq_iff]
  simp only [Int.ModEq, hone]

theorem det_modEq_of_residues_eq {n : Nat} {A B : Matrix (Fin n) (Fin n) Int} (h : residues A = residues B) :
    A.det ≡ B.det [ZMOD 26] := by
  refine (ZMod.intCast_eq_intCast_iff A.det B.det 26).1 ?_
  calc (A.det : ZMod 26) = (residues A).det := RingHom.map_det (Int.castRingHom (ZMod 26)) A
    _ = (residues B).det := by rw [h]
    _ = B.det := (RingHom.map_det (Int.castRingHom (ZMod 26)) B).symm

theorem adjugate_modEq_of_residues_eq {n : Nat} {A B : Matrix (Fin n) (Fin n) Int} (h : residues A = residues B)
    (i j : Fin n) : A.adjugate i j ≡ B.adjugate i j [ZMOD 26] := by
  refine residues_eq_iff.1 ?_ i j
  calc residues A.adjugate = (residues A).adjugate := RingHom.map_adjugate (Int.castRingHom (ZMod 26)) A
    _ = (residues B).adjugate := by rw [h]
    _ = residues B.adjugate := (RingHom.map_adjugate (Int.castRingHom (ZMod 26)) B).symm

/-- If the determinant has no inverse mod 26, neither has the matrix (R99). -/
theorem det_coprime_of_mul_residues_eq_one {n : Nat} {A Q : Matrix (Fin n) (Fin n) Int} (h : residues (A * Q) = 1) :
    Int.gcd (A.det % 26) 26 = 1 := by
  rw [Int.gcd_emod, ← Int.isCoprime_iff_gcd_eq_one, isCoprime_comm]
  refine (ZMod.coe_int_isUnit_iff_isCoprime A.det 26).1 ?_
  have hdet : (A.det : ZMod 26) = (residues A).det := RingHom.map_det (Int.castRingHom (ZMod 26)) A
  rw [hdet]
  exact Matrix.isUnit_det_of_right_inverse (by rw [← map_mul, h])

/-- The adjugate scaled by an inverse of the determinant is an inverse of the matrix, on both sides (R99). -/
theorem residues_mul_scaled_adjugate {n : Nat} {A Q : Matrix (Fin n) (Fin n) Int} {v : Int} (hv : A.det * v % 26 = 1)
    (hQ : ∀ i j, Q i j = v * A.adjugate i j % 26) : residues (A * Q) = 1 ∧ residues (Q * A) = 1 := by
  have hscaled : residues Q = residues (v • A.adjugate) := residues_eq_iff.2 fun i j => by
    rw [hQ, Matrix.smul_apply, smul_eq_mul]
    exact Int.mod_modEq _ 26
  have hdet : residues ((v * A.det) • (1 : Matrix (Fin n) (Fin n) Int)) = 1 := residues_eq_one_iff.2 fun i j => by
    rw [Matrix.smul_apply, Matrix.one_apply]
    split
    · rw [smul_eq_mul, mul_one, mul_comm, hv]
    · rw [smul_zero, Int.zero_emod]
  constructor
  · calc residues (A * Q) = residues (A * v • A.adjugate) := by rw [map_mul, hscaled, ← map_mul]
      _ = residues ((v * A.det) • 1) := by rw [Matrix.mul_smul, Matrix.mul_adjugate, smul_smul]
      _ = 1 := hdet
  · calc residues (Q * A) = residues (v • A.adjugate * A) := by rw [map_mul, hscaled, ← map_mul]
      _ = residues ((v * A.det) • 1) := by rw [Matrix.smul_mul, Matrix.adjugate_mul, smul_smul]
      _ = 1 := hdet

/-- The twelve units of R84's table are the residues coprime with 26. -/
theorem mem_units_iff_coprime (a : Int) :
    a % 26 ∈ ([1, 3, 5, 7, 9, 11, 15, 17, 19, 21, 23, 25] : List Int) ↔ Int.gcd (a % 26) 26 = 1 := by
  have htable : ∀ b ∈ Finset.Ico (0 : Int) 26,
      b ∈ ([1, 3, 5, 7, 9, 11, 15, 17, 19, 21, 23, 25] : List Int) ↔ Int.gcd b 26 = 1 := by decide
  exact htable _ (Finset.mem_Ico.2 ⟨Int.emod_nonneg a (by decide), Int.emod_lt_of_pos a (by decide)⟩)

/-- The operands in two matrix memories whose cells agree mod 26 have the same residues. -/
theorem residues_operand_eq {s t : State} {n : Nat}
    (h : ∀ a, a < n * n → (Memory.read s.MA a).toInt % 26 = (Memory.read t.MA a).toInt % 26) :
    residues (s.operand n) = residues (t.operand n) := by
  refine residues_eq_iff.2 fun i j => h _ ?_
  calc n * i.val + j.val < n * i.val + n := by omega
    _ ≤ n * n := Nat.mul_le_mul_left n i.isLt

/-! ### A result written to MR (R90) -/

theorem Memory.fill_congr {w : Nat} {n : Nat} {f g : Nat → BitVec w} (h : ∀ a < n, f a = g a) (m : Memory w) :
    Memory.fill m n f = Memory.fill m n g := by
  induction n generalizing m with
  | zero => rfl
  | succ n ih => rw [Memory.fill, Memory.fill, h n n.lt_succ_self, ih fun a ha => h a (ha.trans n.lt_succ_self)]

/-- Only the entries of the N×N matrix are written. -/
theorem State.setResult_congr {n : Nat} {q q' : IntMatrix} (h : ∀ i j : Fin n, q i j = q' i j) (s : State) :
    s.setResult n q = s.setResult n q' := by
  have hfill : Memory.fill s.MR (n * n) (fun a => to32 (q (a / n) (a % n))) =
      Memory.fill s.MR (n * n) fun a => to32 (q' (a / n) (a % n)) :=
    Memory.fill_congr (fun a ha => congrArg to32
      (h ⟨a / n, Nat.div_lt_of_lt_mul ha⟩ ⟨a % n, Nat.mod_lt a (Nat.pos_of_lt_mul_left ha)⟩)) s.MR
  rw [State.setResult, State.setResult, hfill]

/-- Writing a result does not depend on MA. -/
theorem State.setResult_of_MA (s : State) (ma : Memory 32) (n : Nat) (q : IntMatrix) :
    { s.setResult n q with MA := ma } = State.setResult { s with MA := ma } n q := rfl

/-- What a command that writes the result `q` delivers: MR holds `q`, the cells from N·N on and everything but MR are
as before. -/
theorem exec_writes_result {i : Instr} {s : State} {n : Nat} {q : IntMatrix}
    (hwf : Memory.wf Config.matrixCells s.MR = true) (h : exec i s = .next (s.setResult n q))
    (hq : ∀ i j : Fin n, -2 ^ 31 ≤ q i j ∧ q i j ≤ 2 ^ 31 - 1) :
    ∃ t, exec i s = .next t ∧ t = { s with MR := t.MR } ∧ (∀ i j, t.result n i j = q i j) ∧
      ∀ a, n * n ≤ a → Memory.read t.MR a = Memory.read s.MR a := by
  refine ⟨_, h, rfl, fun i j => ?_, fun a ha => ?_⟩
  · rw [State.result, Matrix.of_apply, read_setResult_entry s n q hwf i.isLt j.isLt]
    exact toInt_to32 (hq i j).1 (hq i j).2
  · rw [read_setResult s n q hwf, if_neg ha.not_gt]

/-- A residue mod 26 has a pattern. -/
theorem emod_26_fits (z : Int) : -2 ^ 31 ≤ z % 26 ∧ z % 26 ≤ 2 ^ 31 - 1 := by omega

/-! ### What each command comes to, case by case -/

section
variable (rd : Reg) {n : SizeField} (r : ResultForm) (s : State)

theorem exec_mdet_of_small (hn : n.val < 2) :
    exec (.mdet rd n r) s = .next (s.recorded 2 (sizeInfo n) (encode (.mdet rd n r))) :=
  exec_of_raise (c := .badDimension) (if_pos hn)

theorem exec_mdet_exact_of_fits (hn : 2 ≤ n.val)
    (hfits : -2 ^ 31 ≤ (s.operand n.val).det ∧ (s.operand n.val).det ≤ 2 ^ 31 - 1) :
    exec (.mdet rd n .exact) s = .next (s.setReg rd (to32 (s.operand n.val).det)) := by
  rw [← s.det_matrix hn] at hfits ⊢
  exact exec_of_commit ((if_neg hn.not_gt).trans (if_pos ((fits32_iff _).2 hfits)))

theorem exec_mdet_exact_of_not_fits (hn : 2 ≤ n.val)
    (hfits : ¬ (-2 ^ 31 ≤ (s.operand n.val).det ∧ (s.operand n.val).det ≤ 2 ^ 31 - 1)) :
    exec (.mdet rd n .exact) s = .next (s.recorded 7 0#32 (encode (.mdet rd n .exact))) := by
  rw [← s.det_matrix hn, ← fits32_iff] at hfits
  exact exec_of_raise (c := .resultOverflow) ((if_neg hn.not_gt).trans (if_neg hfits))

theorem exec_mdet_reduced (hn : 2 ≤ n.val) :
    exec (.mdet rd n .reduced) s = .next (s.setReg rd (to32 ((s.operand n.val).det % 26))) := by
  rw [← s.det_matrix hn]
  exact exec_of_commit (if_neg hn.not_gt)

theorem exec_madj_of_small (hn : n.val < 2) :
    exec (.madj n r) s = .next (s.recorded 2 (sizeInfo n) (encode (.madj n r))) :=
  exec_of_raise (c := .badDimension) (if_pos hn)

/-- MADJ's overflow check is on the entries of the adjugate of linear algebra. -/
theorem allFit32_adj_iff (hn : 2 ≤ n.val) : allFit32 n.val (adj n.val (s.matrix n.val)) = true ↔
    ∀ i j, -2 ^ 31 ≤ (s.operand n.val).adjugate i j ∧ (s.operand n.val).adjugate i j ≤ 2 ^ 31 - 1 := by
  simp only [allFit32_iff, ← s.adj_matrix hn, Fin.forall_iff]

theorem exec_madj_exact_of_fits (hn : 2 ≤ n.val)
    (hfits : ∀ i j, -2 ^ 31 ≤ (s.operand n.val).adjugate i j ∧ (s.operand n.val).adjugate i j ≤ 2 ^ 31 - 1) :
    exec (.madj n .exact) s = .next (s.setResult n.val (adj n.val (s.matrix n.val))) :=
  exec_of_commit ((if_neg hn.not_gt).trans (if_pos ((allFit32_adj_iff s hn).2 hfits)))

theorem exec_madj_exact_of_not_fits (hn : 2 ≤ n.val)
    (hfits : ¬ ∀ i j, -2 ^ 31 ≤ (s.operand n.val).adjugate i j ∧ (s.operand n.val).adjugate i j ≤ 2 ^ 31 - 1) :
    exec (.madj n .exact) s = .next (s.recorded 7 0#32 (encode (.madj n .exact))) :=
  exec_of_raise (c := .resultOverflow)
    ((if_neg hn.not_gt).trans (if_neg fun h => hfits ((allFit32_adj_iff s hn).1 h)))

theorem exec_madj_reduced (hn : 2 ≤ n.val) :
    exec (.madj n .reduced) s = .next (s.setResult n.val fun i j => adj n.val (s.matrix n.val) i j % 26) :=
  exec_of_commit (if_neg hn.not_gt)

theorem exec_minv_of_small (hn : n.val < 2) :
    exec (.minv n) s = .next (s.recorded 2 (sizeInfo n) (encode (.minv n))) :=
  exec_of_raise (c := .badDimension) (if_pos hn)

/-- MINV scales by the one inverse of the determinant in [1, 26) (R96). -/
theorem exec_minv_of_inverse (hn : 2 ≤ n.val) {v : Int} (h1 : 1 ≤ v) (hlt : v < 26)
    (hinv : (s.operand n.val).det * v % 26 = 1) :
    exec (.minv n) s = .next (s.setResult n.val fun i j => v * adj n.val (s.matrix n.val) i j % 26) := by
  have hdet : det26 n.val (s.matrix n.val) = (s.operand n.val).det % 26 :=
    congrArg (· % 26) (s.det_matrix hn)
  have hsearch : modInverse ((s.operand n.val).det % 26) 26 = some v := by
    have hinv26 := ((Int.mod_modEq (s.operand n.val).det 26).mul_right v).eq.trans hinv
    exact (modInverse_eq_some_iff (by decide)).2 ⟨h1, hlt, hinv26⟩
  exact exec_of_commit ((if_neg hn.not_gt).trans (by rw [hdet, hsearch]; rfl))

theorem exec_minv_of_not_coprime (hn : 2 ≤ n.val) (hgcd : Int.gcd ((s.operand n.val).det % 26) 26 ≠ 1) :
    exec (.minv n) s = .next (s.recorded 6 (to32 ((s.operand n.val).det % 26)) (encode (.minv n))) :=
  exec_minv_of_no_inverse s hn fun t h1 hlt hinv =>
    hgcd ((inverse_exists_iff_coprime (by decide)).1 ⟨t, h1, hlt, hinv⟩)

/-- What MINV delivers when the determinant is coprime with 26 (R96). -/
theorem exec_minv_of_coprime (hn : 2 ≤ n.val) (hwf : Memory.wf Config.matrixCells s.MR = true)
    (hgcd : Int.gcd ((s.operand n.val).det % 26) 26 = 1) :
    ∃ v : Int, 1 ≤ v ∧ v < 26 ∧ (s.operand n.val).det * v % 26 = 1 ∧
      ∃ t, exec (.minv n) s = .next t ∧ t = { s with MR := t.MR } ∧
        (∀ i j, t.result n.val i j = v * (s.operand n.val).adjugate i j % 26) ∧
        ∀ a, n.val * n.val ≤ a → Memory.read t.MR a = Memory.read s.MR a := by
  obtain ⟨v, h1, hlt, hinv⟩ := (inverse_exists_iff_coprime (by decide)).2 hgcd
  refine ⟨v, h1, hlt, hinv, ?_⟩
  simp only [← s.adj_matrix hn]
  exact exec_writes_result hwf (exec_minv_of_inverse s hn h1 hlt hinv) fun i j => emod_26_fits _

end

/-! ### The obligations -/

/-- Settles O6: the determinant is written out for each size, and cofactors agree because minors do. -/
theorem engineComputesDeterminantAndAdjugate : Obligations.EngineComputesDeterminantAndAdjugate :=
  fun M => ⟨rfl, det_three M, fun _ hn => ⟨det_eq_matrix_det hn M, adj_eq_matrix_adjugate hn M⟩⟩

/-- Settles O7: Mathlib has both products for its adjugate, which is the engine's. -/
theorem adjugateTimesMatrixIsDeterminant : Obligations.AdjugateTimesMatrixIsDeterminant := by
  intro n M hn i hi j hj
  lift i to Fin n using hi
  lift j to Fin n using hj
  have hsum (f : Nat → Int) : ((List.range n).map f).sum = ∑ k : Fin n, f k := Finset.sum_range f
  have hone (d : Int) : (d • (1 : Matrix (Fin n) (Fin n) Int)) i j = if i.val = j.val then d else 0 := by
    simp [Matrix.one_apply, Fin.ext_iff]
  rw [hsum, hsum, det_eq_matrix_det hn, ← hone]
  constructor
  · rw [← Matrix.mul_adjugate, Matrix.mul_apply]
    simp only [adj_eq_matrix_adjugate hn, Matrix.of_apply]
  · rw [← Matrix.adjugate_mul, Matrix.mul_apply]
    simp only [adj_eq_matrix_adjugate hn, Matrix.of_apply]

/-- Settles O8: the check for overflow is on the exact determinant, and a residue needs none. -/
theorem mdetDeliversDeterminant : Obligations.MdetDeliversDeterminant :=
  fun rd n s => ⟨fun r => decode_encode (i := .mdet rd n r) rfl,
    fun hn hlo hhi => ⟨toInt_to32 hlo hhi, exec_mdet_exact_of_fits rd s hn ⟨hlo, hhi⟩⟩,
    fun hn hout => exec_mdet_exact_of_not_fits rd s hn (by omega),
    exec_mdet_reduced rd s, fun hn r => exec_mdet_of_small rd r s hn⟩

/-- Settles O9: either result fits its cells, the exact one by the check and a residue by its range. -/
theorem madjDeliversAdjugate : Obligations.MadjDeliversAdjugate := by
  refine fun n s hwf => ⟨fun r => decode_encode (i := .madj n r) rfl, fun hn hfits => ?fits, fun hn hout => ?overflow,
    fun hn => ?reduced, fun hn r => exec_madj_of_small r s hn⟩
  case fits =>
    have hexec := exec_madj_exact_of_fits s hn hfits
    simp only [← Matrix.ext_iff, ← s.adj_matrix hn] at hfits ⊢
    exact exec_writes_result hwf hexec hfits
  case overflow =>
    obtain ⟨i, j, hij⟩ := hout
    exact exec_madj_exact_of_not_fits s hn fun hfits => by have := hfits i j; omega
  case reduced =>
    simp only [← s.adj_matrix hn]
    exact exec_writes_result hwf (exec_madj_reduced s hn) fun i j => emod_26_fits _

/-- Settles O10: the twelve units are the residues coprime with 26, for which the search finds an inverse. -/
theorem minvDeliversScaledAdjugate : Obligations.MinvDeliversScaledAdjugate := by
  refine fun n s hwf => ⟨decode_encode (i := .minv n) rfl, fun hn hunit => ?_, fun hn hunit => ?_,
    exec_minv_of_small s⟩
  · obtain ⟨v, h1, hlt, hinv, hresult⟩ := exec_minv_of_coprime s hn hwf ((mem_units_iff_coprime _).1 hunit)
    exact ⟨v, h1, hlt, ((Int.mod_modEq _ 26).mul_right v).eq.trans hinv, hresult⟩
  · exact exec_minv_of_not_coprime s hn fun hgcd => hunit ((mem_units_iff_coprime _).2 hgcd)

/-- Settles O11: the scaled adjugate is an inverse over ℤ/26ℤ, and a matrix with an inverse has a unit as its
determinant. -/
theorem minvInvertsModulo26 : Obligations.MinvInvertsModulo26 := by
  refine fun n s hwf hn => ⟨fun hgcd => ?_, fun hgcd => ⟨⟨_, exec_minv_of_not_coprime s hn hgcd⟩, ?_⟩⟩
  · obtain ⟨v, -, -, hinv, t, hexec, -, hresult, -⟩ := exec_minv_of_coprime s hn hwf hgcd
    obtain ⟨hright, hleft⟩ := residues_mul_scaled_adjugate hinv hresult
    exact ⟨t, hexec, fun i j => ⟨residues_eq_one_iff.1 hright i j, residues_eq_one_iff.1 hleft i j⟩⟩
  · rintro ⟨Q, hQ⟩
    exact hgcd (det_coprime_of_mul_residues_eq_one (residues_eq_one_iff.2 hQ))

/-- Settles O12: operands with the same residues have the same determinant and adjugate mod 26, and each of the three
commands delivers, or fails by, these alone. -/
theorem reducedResultsDependOnResidues : Obligations.ReducedResultsDependOnResidues := by
  intro rd n s ma hcells i hi
  simp only [List.mem_cons, List.not_mem_nil, or_false] at hi
  obtain hn | hn := lt_or_ge n.val 2
  · obtain rfl | rfl | rfl := hi
    · exact ⟨_, exec_mdet_of_small rd .reduced s hn, exec_mdet_of_small rd .reduced _ hn⟩
    · exact ⟨_, exec_madj_of_small .reduced s hn, exec_madj_of_small .reduced _ hn⟩
    · exact ⟨_, exec_minv_of_small s hn, exec_minv_of_small _ hn⟩
  have hres : residues (s.operand n.val) = residues (State.operand { s with MA := ma } n.val) :=
    residues_operand_eq hcells
  have hdet := det_modEq_of_residues_eq hres
  have hadj (i j : Fin n.val) : adj n.val (s.matrix n.val) i j ≡
      adj n.val (State.matrix { s with MA := ma } n.val) i j [ZMOD 26] := by
    rw [State.adj_matrix _ hn, State.adj_matrix _ hn]
    exact adjugate_modEq_of_residues_eq hres i j
  obtain rfl | rfl | rfl := hi
  · -- MDET.R delivers the residue of the determinant
    refine ⟨_, exec_mdet_reduced rd s hn, (exec_mdet_reduced rd _ hn).trans ?_⟩
    rw [hdet.eq]; rfl
  · -- MADJ.R writes the residues of the adjugate
    refine ⟨_, exec_madj_reduced s hn, (exec_madj_reduced _ hn).trans ?_⟩
    rw [State.setResult_of_MA]
    refine congrArg Host.Outcome.next (State.setResult_congr (fun i j => ?_) _)
    exact (hadj i j).symm
  · -- MINV finds the same inverse for both operands, or none for either
    by_cases hgcd : Int.gcd ((s.operand n.val).det % 26) 26 = 1
    · obtain ⟨v, h1, hlt, hinv⟩ := (inverse_exists_iff_coprime (by decide)).2 hgcd
      refine ⟨_, exec_minv_of_inverse s hn h1 hlt hinv,
        (exec_minv_of_inverse _ hn h1 hlt ((hdet.symm.mul_right v).eq.trans hinv)).trans ?_⟩
      rw [State.setResult_of_MA]
      refine congrArg Host.Outcome.next (State.setResult_congr (fun i j => ?_) _)
      exact ((hadj i j).mul_left v).symm
    · refine ⟨_, exec_minv_of_not_coprime s hn hgcd, (exec_minv_of_not_coprime _ hn (hdet.eq ▸ hgcd)).trans ?_⟩
      rw [hdet.eq]; rfl

/-- Settles O13: N! products of N factors, each at most 2^31. -/
theorem determinantStaysBelow97Bits : Obligations.DeterminantStaysBelow97Bits := by
  refine fun s => ⟨(s.abs_det_matrix_le (.inr rfl)).trans_lt ?_, (s.abs_det_matrix_le (.inl rfl)).trans ?_⟩
  · norm_num [Nat.factorial]
  · norm_num [Nat.factorial]

end Sys2Proof.Machine
end

section
/-! PROOFS. The Playfair commands PFBUILD, PFPOS and PFPAIR, and the life of the valid bit (spec/42_playfair.md R106 to
R113). -/

namespace Sys2Proof

/-- The direction that undoes the other (R112). -/
def Direction.opposite : Direction → Direction
  | .encrypt => .decrypt
  | .decrypt => .encrypt

end Sys2Proof

namespace Sys2Proof.Machine

/-! ### Key normalisation (R106) -/

/-- What remains of `norm` once the code has been folded to upper case. -/
theorem norm_of_folded {b : Byte} {v : Nat} (hv : v < 26)
    (hb : (if 0x61 ≤ b.toNat ∧ b.toNat ≤ 0x7A then b.toNat - 0x20 else b.toNat) = 0x41 + v) :
    norm b = some (if v = 9 then 8 else v) := by
  simp only [norm, hb]
  by_cases hj : v = 9
  · simp [hj]
  · have hne : ¬ 0x41 + v = 0x4A := by omega
    have hletter : 0x41 ≤ 0x41 + v ∧ 0x41 + v ≤ 0x5A := by omega
    simp only [hne, hj, hletter, if_false, and_self, if_true, Nat.add_sub_cancel_left]

theorem norm_of_nonletter {b : Byte}
    (hb : b.toNat ≤ 0x40 ∨ (0x5B ≤ b.toNat ∧ b.toNat ≤ 0x60) ∨ 0x7B ≤ b.toNat) : norm b = none := by
  have hlower : ¬ (0x61 ≤ b.toNat ∧ b.toNat ≤ 0x7A) := by omega
  have hne : ¬ b.toNat = 0x4A := by omega
  have hupper : ¬ (0x41 ≤ b.toNat ∧ b.toNat ≤ 0x5A) := by omega
  simp only [norm, if_neg hlower, if_neg hne, if_neg hupper]

/-- Settles O14: both letter ranges fold to 0x41 + v, no other code does, and `norm` gives letters of the alphabet. -/
theorem keyCharacterIsNormalised : Obligations.KeyCharacterIsNormalised := by
  refine fun b => ⟨fun v hv hb => norm_of_folded hv ?upper, fun v hv hb => norm_of_folded hv ?lower,
    norm_of_nonletter, fun h9 => (mem_alphabet.1 (norm_mem h9)).2 rfl⟩
  case upper => rw [if_neg (by omega), hb]
  case lower => rw [if_pos (by omega)]; omega

/-! ### PFBUILD (R107) -/

section
variable {s : State}

theorem exec_pfbuild (hL : s.klen ≤ 64) :
    exec .pfbuild s = .next { s with KSQ := s.builtSquare, STATUS := statusSetKV s.STATUS } :=
  execAt_default ▸ execAt_pfbuild (p := {}) hL

theorem exec_pfbuild_tooLong (hL : 64 < s.klen) :
    exec .pfbuild s = .next (s.recorded 8 s.KLEN 0x30000000#32) :=
  execAt_default ▸ execAt_pfbuild_tooLong (p := {}) hL

/-- On a valid square, building it again changes no cell ("Deterministic given the key"). -/
theorem State.builtSquare_of_valid (hwf : Memory.wf Config.squareCells s.KSQ = true)
    (hsq : s.squareList = buildSquare s.key) : s.builtSquare = s.KSQ := by
  refine Memory.ext (wf_builtSquare hwf) hwf fun k => ?_
  obtain hk | hk := lt_or_ge k 25
  · have hcell : (buildSquare s.key).getD k 0 = (Memory.read s.KSQ k).toNat := by
      rw [← hsq, List.getD_eq_getElem _ _ (s.squareList_length.symm ▸ hk), s.squareList_getElem hk]
    exact BitVec.eq_of_toNat_eq ((read_builtSquare hwf hk).trans hcell)
  · rw [Memory.read_of_le (wf_builtSquare hwf) hk, Memory.read_of_le hwf hk]

theorem statusSetKV_of_set {v : Word} (h : v.getLsbD 1 = true) : statusSetKV v = v := by
  refine BitVec.eq_of_getLsbD_eq fun b _ => ?_
  rw [statusSetKV_bit]
  by_cases hb : b = 1
  · simp [hb, h]
  · simp [hb]

theorem exec_pfbuild_of_valid (hI : s.Inv) (hKV : s.KV = true) : exec .pfbuild s = .next s := by
  obtain ⟨hL, hsq⟩ := hI.square hKV
  rw [exec_pfbuild hL, State.builtSquare_of_valid hI.ksq hsq, statusSetKV_of_set hKV]

end

/-- Settles O15: what PFBUILD leaves in KSQ is `builtSquare`, whose cells are the square of the key. -/
theorem pfbuildBuildsKeySquare : Obligations.PfbuildBuildsKeySquare := by
  refine fun s hwf => ⟨decode_encode (i := .pfbuild) rfl, fun hL => ?_, exec_pfbuild_tooLong⟩
  have hx := exec_pfbuild hL
  have hsq := fun t => squareList_of_builtSquare (t := t) hwf
  have hwf' := State.wf_builtSquare hwf
  -- the square stays a variable, or `rfl` would compute its 25 cells
  generalize s.builtSquare = sq at hx hsq hwf'
  exact ⟨_, hx, rfl, hsq _ rfl, hwf'⟩

/-! ### Positions on a valid square (R108, R109) -/

/-- A row and a column of the square. -/
def InSquare (p : Nat × Nat) : Prop := p.1 < 5 ∧ p.2 < 5

section
variable {s : State} {v : Int}

/-- The square of a state of the invariant is a permutation of the alphabet while KV is 1. -/
theorem State.Inv.squareList_perm (hI : s.Inv) (hKV : s.KV = true) : s.squareList.Perm alphabet :=
  (hI.square hKV).2 ▸ buildSquare_perm s.key

theorem State.HoldsAt.inSquare {p : Nat × Nat} (h : s.HoldsAt v p.1 p.2) : InSquare p :=
  have ⟨hr, hc, _⟩ := h
  ⟨hr, hc⟩

/-- In any state a value has at most one position, the least cell that holds it. -/
theorem State.HoldsAt.unique {p q : Nat × Nat} (hp : s.HoldsAt v p.1 p.2) (hq : s.HoldsAt v q.1 q.2) : q = p :=
  Option.some.inj (((s.pos_eq_some_iff v q.1 q.2).2 hq).symm.trans ((s.pos_eq_some_iff v p.1 p.2).2 hp))

variable (hsq : s.squareList.Perm alphabet)
include hsq

/-- The values no cell of a valid square holds (R110). -/
theorem State.absent_iff : s.Absent v ↔ v = 9 ∨ v < 0 ∨ 25 < v := by
  have hmem := State.square_mem hsq v.toNat
  rw [mem_alphabet] at hmem
  constructor
  · intro habs
    by_contra hv
    obtain ⟨k, hk, hcell⟩ := hmem.2 (by omega)
    exact habs k hk (by omega)
  · intro hv k hk hcell
    have hletter := hmem.1 ⟨k, hk, by omega⟩
    omega

/-- Every letter of the alphabet has a position in a valid square. -/
theorem State.exists_holdsAt (h0 : 0 ≤ v) (h25 : v ≤ 25) (h9 : v ≠ 9) :
    ∃ p : Nat × Nat, s.HoldsAt v p.1 p.2 := by
  cases hpos : s.pos v with
  | none =>
    have := (State.absent_iff hsq).1 ((s.pos_eq_none_iff v).1 hpos)
    omega
  | some p => exact ⟨p, (s.pos_eq_some_iff v p.1 p.2).1 hpos⟩

/-- Each cell of a valid square is the position of the letter it holds: no earlier cell holds it too. -/
theorem State.holdsAt_cell {p : Nat × Nat} (hp : InSquare p) :
    s.HoldsAt (Memory.read s.KSQ (5 * p.1 + p.2)).toNat p.1 p.2 := by
  obtain ⟨hr, hc⟩ := hp
  refine ⟨hr, hc, rfl, fun k hk hcell => ?_⟩
  have hsame := State.square_inj hsq (by omega) (by omega) (Int.ofNat.inj hcell)
  omega

end

/-- Settles O16: a value of the alphabet is not absent, so it has its position, which is the only one. -/
theorem keySquareHoldsEachLetterOnce : Obligations.KeySquareHoldsEachLetterOnce := by
  intro s hI hKV
  have hsq := hI.squareList_perm hKV
  have halphabet : alphabet = (List.range 26).filter fun v => decide (v ≠ 9) := by decide
  refine ⟨halphabet ▸ hsq, fun v h0 h26 h9 => ?_, fun v => (State.absent_iff hsq).2⟩
  obtain ⟨p, hp⟩ := State.exists_holdsAt hsq h0 (by omega) h9
  exact ⟨p, hp, fun q => hp.unique⟩

/-! ### PFPOS (R110) -/

section
variable {rd rd2 : Reg} (hne : rd ≠ rd2) (rs1 : Reg) {s : State}
include hne

theorem exec_pfpos_of_holdsAt (hKV : s.KV = true) {r c : Nat} (h : s.HoldsAt (s.sint rs1) r c) :
    exec (.pfpos rd rd2 rs1) s = .next ((s.setReg rd (to32 r)).setReg rd2 (to32 c)) := by
  have hpos := (s.pos_eq_some_iff _ r c).2 h
  exact exec_of_commit ((if_neg hne).trans ((if_neg (by simp [hKV])).trans (by rw [hpos])))

theorem exec_pfpos_of_absent (hKV : s.KV = true) (h : s.Absent (s.sint rs1)) :
    exec (.pfpos rd rd2 rs1) s = .next (s.recorded 11 (s.reg rs1) (encode (.pfpos rd rd2 rs1))) := by
  have hpos := (s.pos_eq_none_iff _).2 h
  exact exec_of_raise (c := .letterNotInSquare)
    ((if_neg hne).trans ((if_neg (by simp [hKV])).trans (by rw [hpos])))

theorem exec_pfpos_of_invalid (hKV : s.KV = false) :
    exec (.pfpos rd rd2 rs1) s = .next (s.recorded 10 0#32 (encode (.pfpos rd rd2 rs1))) :=
  exec_of_raise (c := .keySquareInvalid) ((if_neg hne).trans (if_pos hKV))

end

/-- Settles O17: one lemma per outcome of PFPOS; on a valid square the absent values are known. -/
theorem pfposDeliversPosition : Obligations.PfposDeliversPosition := by
  refine fun rd rd2 rs1 s hne => ⟨decode_encode (i := .pfpos rd rd2 rs1) (by simpa [Instr.wellFormed] using hne),
    fun hKV r c h => ?found, exec_pfpos_of_absent hne rs1, fun hKV hI hv => ?absent, fun hKV hI h0 h25 h9 => ?letter,
    exec_pfpos_of_invalid hne rs1⟩
  case found =>
    rw [exec_pfpos_of_holdsAt hne rs1 hKV h, to32_natCast, to32_natCast]
    rfl
  case absent => exact exec_pfpos_of_absent hne rs1 hKV ((State.absent_iff (hI.squareList_perm hKV)).2 hv)
  case letter =>
    obtain ⟨p, hp⟩ := State.exists_holdsAt (hI.squareList_perm hKV) h0 h25 h9
    exact ⟨p.1, p.2, hp⟩

/-! ### The substitution rule on positions (R111) -/

theorem shift_encrypt (k : Nat) : shift .encrypt k = (k + 1) % 5 := by
  simp only [shift, fmod]; omega

theorem shift_decrypt (k : Nat) : shift .decrypt k = (k + 4) % 5 := by
  simp only [shift, fmod]; omega

theorem shift_lt (dir : Direction) (k : Nat) : shift dir k < 5 := by
  cases dir with
  | encrypt => rw [shift_encrypt]; omega
  | decrypt => rw [shift_decrypt]; omega

theorem shift_opposite_shift (dir : Direction) {k : Nat} (hk : k < 5) : shift dir.opposite (shift dir k) = k := by
  cases dir with
  | encrypt => rw [Direction.opposite, shift_encrypt, shift_decrypt]; omega
  | decrypt => rw [Direction.opposite, shift_encrypt, shift_decrypt]; omega

theorem shift_inj (dir : Direction) {k k' : Nat} (hk : k < 5) (hk' : k' < 5) (h : shift dir k = shift dir k') :
    k = k' := by
  rw [← shift_opposite_shift dir hk, h, shift_opposite_shift dir hk']

section
variable (dir : Direction) {r1 k1 r2 k2 : Nat}

theorem substitute_same_row (h : r1 = r2) :
    substitute dir (r1, k1) (r2, k2) = ((r1, shift dir k1), (r2, shift dir k2)) := if_pos h

theorem substitute_same_column (hr : r1 ≠ r2) (hk : k1 = k2) :
    substitute dir (r1, k1) (r2, k2) = ((shift dir r1, k1), (shift dir r2, k2)) := (if_neg hr).trans (if_pos hk)

theorem substitute_rectangle (hr : r1 ≠ r2) (hk : k1 ≠ k2) :
    substitute dir (r1, k1) (r2, k2) = ((r1, k2), (r2, k1)) := (if_neg hr).trans (if_neg hk)

/-- The substitute of two cells of the square is two cells of the square, from which the opposite direction leads
back: the rule takes the same branch both times (R112). -/
theorem exists_substitute {p q : Nat × Nat} (hp : InSquare p) (hq : InSquare q) :
    ∃ p' q', InSquare p' ∧ InSquare q' ∧ substitute dir p q = (p', q') ∧ substitute dir.opposite p' q' = (p, q) := by
  obtain ⟨r1, k1⟩ := p
  obtain ⟨r2, k2⟩ := q
  obtain ⟨hr1, hk1⟩ := hp
  obtain ⟨hr2, hk2⟩ := hq
  by_cases hr : r1 = r2
  · refine ⟨(r1, shift dir k1), (r2, shift dir k2), ⟨hr1, shift_lt dir k1⟩, ⟨hr2, shift_lt dir k2⟩,
      substitute_same_row dir hr, ?_⟩
    rw [substitute_same_row _ hr, shift_opposite_shift dir hk1, shift_opposite_shift dir hk2]
  · by_cases hk : k1 = k2
    · refine ⟨(shift dir r1, k1), (shift dir r2, k2), ⟨shift_lt dir r1, hk1⟩, ⟨shift_lt dir r2, hk2⟩,
        substitute_same_column dir hr hk, ?_⟩
      rw [substitute_same_column _ (fun h => hr (shift_inj dir hr1 hr2 h)) hk, shift_opposite_shift dir hr1,
        shift_opposite_shift dir hr2]
    · exact ⟨(r1, k2), (r2, k1), ⟨hr1, hk2⟩, ⟨hr2, hk1⟩, substitute_rectangle dir hr hk,
        substitute_rectangle _ hr (Ne.symm hk)⟩

end

/-! ### PFPAIR (R111) -/

section
variable {rd rd2 : Reg} (hne : rd ≠ rd2) (dir : Direction) {s : State}
include hne

/-- PFPAIR delivers the letters of the two cells that replace the pair's. -/
theorem exec_pfpair_of_holdsAt (hKV : s.KV = true) {p q p' q' : Nat × Nat} (h1 : s.HoldsAt (s.sint rd) p.1 p.2)
    (h2 : s.HoldsAt (s.sint rd2) q.1 q.2) (hsub : substitute dir p q = (p', q')) :
    exec (.pfpair rd rd2 dir) s = .next (s.setPair rd rd2 (s.letterAt p'.1 p'.2) (s.letterAt q'.1 q'.2)) := by
  have hpos1 := (s.pos_eq_some_iff _ p.1 p.2).2 h1
  have hpos2 := (s.pos_eq_some_iff _ q.1 q.2).2 h2
  have hletter (r c : Nat) : BitVec.ofNat 32 (s.square r c) = s.letterAt r c := BitVec.ofNat_toNat ..
  refine exec_of_commit ((if_neg hne).trans ((if_neg (by simp [hKV])).trans ?_))
  simp only [hpos1, hpos2, hsub, hletter]
  rfl

theorem exec_pfpair_of_absent_first (hKV : s.KV = true) (h : s.Absent (s.sint rd)) :
    exec (.pfpair rd rd2 dir) s = .next (s.recorded 11 (s.reg rd) (encode (.pfpair rd rd2 dir))) := by
  have hpos := (s.pos_eq_none_iff _).2 h
  exact exec_of_raise (c := .letterNotInSquare)
    ((if_neg hne).trans ((if_neg (by simp [hKV])).trans (by rw [hpos])))

theorem exec_pfpair_of_absent_second (hKV : s.KV = true) {r c : Nat} (h1 : s.HoldsAt (s.sint rd) r c)
    (h2 : s.Absent (s.sint rd2)) :
    exec (.pfpair rd rd2 dir) s = .next (s.recorded 11 (s.reg rd2) (encode (.pfpair rd rd2 dir))) := by
  have hpos1 := (s.pos_eq_some_iff _ r c).2 h1
  have hpos2 := (s.pos_eq_none_iff _).2 h2
  exact exec_of_raise (c := .letterNotInSquare)
    ((if_neg hne).trans ((if_neg (by simp [hKV])).trans (by rw [hpos1, hpos2])))

theorem exec_pfpair_of_invalid (hKV : s.KV = false) :
    exec (.pfpair rd rd2 dir) s = .next (s.recorded 10 0#32 (encode (.pfpair rd rd2 dir))) :=
  exec_of_raise (c := .keySquareInvalid) ((if_neg hne).trans (if_pos hKV))

end

/-- Settles O18: one lemma per branch of the substitution rule, and one per fault. -/
theorem pfpairSubstitutesPair : Obligations.PfpairSubstitutesPair := by
  refine fun rd rd2 dir s hne =>
    ⟨decode_encode (i := .pfpair rd rd2 dir) (by simpa [Instr.wellFormed] using hne),
      fun hKV r1 k1 r2 k2 h1 h2 => ?_, exec_pfpair_of_absent_first hne dir,
      fun hKV _ _ => exec_pfpair_of_absent_second hne dir hKV, exec_pfpair_of_invalid hne dir⟩
  have hx dir {a b c d : Nat} (hsub : substitute dir (r1, k1) (r2, k2) = ((a, b), (c, d))) :
      exec (.pfpair rd rd2 dir) s = .next (s.setPair rd rd2 (s.letterAt a b) (s.letterAt c d)) :=
    exec_pfpair_of_holdsAt hne dir hKV (p := (r1, k1)) (q := (r2, k2)) (p' := (a, b)) (q' := (c, d)) h1 h2
      hsub
  -- first the decrypting shifts, or `k + 4` would be read as `k + 3 + 1`
  simp only [← shift_decrypt]
  simp only [← shift_encrypt]
  exact ⟨fun hr => hx _ (substitute_same_row _ hr), fun hr => hx _ (substitute_same_row _ hr),
    fun hr hk => hx _ (substitute_same_column _ hr hk), fun hr hk => hx _ (substitute_same_column _ hr hk),
    fun hr hk => hx _ (substitute_rectangle _ hr hk)⟩

/-! ### PFPAIR undone (R112) -/

section
variable {s : State} {rd rd2 : Reg}

theorem State.toInt_letterAt (r c : Nat) : (s.letterAt r c).toInt = (Memory.read s.KSQ (5 * r + c)).toNat := by
  have hlt := (Memory.read s.KSQ (5 * r + c)).isLt
  rw [State.letterAt, BitVec.toInt_eq_toNat_of_lt] <;> rw [BitVec.toNat_setWidth_of_le (by decide)]
  omega

/-- The letter at the position of a register's value is that register's pattern. -/
theorem State.letterAt_of_holdsAt {r c : Nat} (h : s.HoldsAt (s.sint rd) r c) : s.letterAt r c = s.reg rd := by
  obtain ⟨-, -, hcell, -⟩ := h
  exact BitVec.eq_of_toInt_eq ((State.toInt_letterAt r c).trans hcell)

theorem State.setPair_eq (u v : Word) : s.setPair rd rd2 u v = (s.setReg rd u).setReg rd2 v := rfl

theorem State.letterAt_setPair (u v : Word) (r c : Nat) : (s.setPair rd rd2 u v).letterAt r c = s.letterAt r c := rfl

theorem State.sint_setPair_right (u v : Word) : (s.setPair rd rd2 u v).sint rd2 = v.toInt := by
  rw [State.setPair_eq, State.sint_setReg, if_pos rfl]

variable (hne : rd ≠ rd2)
include hne

theorem State.sint_setPair_left (u v : Word) : (s.setPair rd rd2 u v).sint rd = u.toInt := by
  rw [State.setPair_eq, State.sint_setReg, if_neg hne, State.sint_setReg, if_pos rfl]

/-- Writing back what a pair of registers held undoes a write of the pair. -/
theorem State.setPair_setPair_reg (u v : Word) :
    (s.setPair rd rd2 u v).setPair rd rd2 (s.reg rd) (s.reg rd2) = s := by
  rw [State.setPair_eq, State.setPair_eq, State.setReg_comm _ hne.symm]
  simp only [State.setReg_setReg, State.setReg_reg_self]

/-- The letters delivered stand in the cells they were taken from, so the opposite direction finds these cells and
delivers the first pair. -/
theorem exec_pfpair_opposite (hI : s.Inv) (hKV : s.KV = true) (dir : Direction) {p q : Nat × Nat}
    (h1 : s.HoldsAt (s.sint rd) p.1 p.2) (h2 : s.HoldsAt (s.sint rd2) q.1 q.2) :
    ∃ t, exec (.pfpair rd rd2 dir) s = .next t ∧ exec (.pfpair rd rd2 dir.opposite) t = .next s := by
  have hsq := hI.squareList_perm hKV
  obtain ⟨p', q', hp', hq', hsub, hback⟩ := exists_substitute dir h1.inSquare h2.inSquare
  let t := s.setPair rd rd2 (s.letterAt p'.1 p'.2) (s.letterAt q'.1 q'.2)
  have ht1 : t.HoldsAt (t.sint rd) p'.1 p'.2 := by
    rw [State.sint_setPair_left hne, State.toInt_letterAt]
    exact State.holdsAt_cell hsq hp'
  have ht2 : t.HoldsAt (t.sint rd2) q'.1 q'.2 := by
    rw [State.sint_setPair_right, State.toInt_letterAt]
    exact State.holdsAt_cell hsq hq'
  have hrestored : t.setPair rd rd2 (t.letterAt p.1 p.2) (t.letterAt q.1 q.2) = s := by
    rw [State.letterAt_setPair, State.letterAt_setPair, State.letterAt_of_holdsAt h1, State.letterAt_of_holdsAt h2]
    exact State.setPair_setPair_reg hne _ _
  have hsecond := exec_pfpair_of_holdsAt hne dir.opposite (s := t) hKV ht1 ht2 hback
  exact ⟨t, exec_pfpair_of_holdsAt hne dir hKV h1 h2 hsub, hrestored ▸ hsecond⟩

end

/-- Settles O19: two letters have positions, and either direction is the opposite of the other. -/
theorem pfpairDecryptUndoesEncrypt : Obligations.PfpairDecryptUndoesEncrypt := by
  rintro rd rd2 s hne hI hKV ⟨h0, h25, h9⟩ ⟨h0', h25', h9'⟩
  have hsq := hI.squareList_perm hKV
  obtain ⟨p, h1⟩ := State.exists_holdsAt hsq h0 h25 h9
  obtain ⟨q, h2⟩ := State.exists_holdsAt hsq h0' h25' h9'
  exact ⟨exec_pfpair_opposite hne hI hKV .encrypt h1 h2, exec_pfpair_opposite hne hI hKV .decrypt h1 h2⟩

/-! ### The valid bit (R113) -/

theorem State.recorded_KV (s : State) (code : Nat) (info w : Word) : (s.recorded code info w).KV = s.KV := by
  change (statusSetF s.STATUS).getLsbD 1 = s.KV
  rw [statusSetF_bit]
  exact Bool.or_false _

/-- No command but PFBUILD changes the valid bit or the square. -/
theorem exec_keeps_square {i : Instr} {s t : State} (hi : i ≠ .pfbuild) (h : exec i s = .next t) :
    t.KV = s.KV ∧ t.KSQ = s.KSQ := by
  obtain ⟨-, -, -, hKSQ, -, hSTATUS⟩ := commandWritesOnlyItsDestinations i s t h
  exact ⟨hSTATUS 1 one_ne_zero fun e => absurd e hi, hKSQ hi⟩

/-- A word other than that of PFBUILD is discarded, records IllegalCommand or is another command. -/
theorem presentCommand_keeps_KV {w : Word} {s t : State} (hw : w ≠ 0x30000000#32)
    (h : presentCommand w s = .next t) : t.KV = s.KV := by
  obtain ⟨-, -, rfl⟩ | ⟨-, -, rfl⟩ | ⟨-, i, hd, hx⟩ := presentCommand_cases h
  · rfl
  · exact State.takeFault_KV ..
  · have hi : i ≠ .pfbuild := by
      rintro rfl
      exact hw (encodeOfDecodeIsIdentity w _ hd).1.symm
    exact (exec_keeps_square hi hx).1

/-- The words of the key: KLEN and the cells of KBUF (R44). -/
def WindowWord.holdsKey (W : WindowWord) : Prop := W = .klen ∨ ∃ c, W = .kbuf c

theorem windowWord_holdsKey_iff {i : Fin 1024} :
    (windowWord i).holdsKey ↔ i.val = 5 ∨ (128 ≤ i.val ∧ i.val < 192) := by
  constructor
  · rintro (h | ⟨c, h⟩)
    · have hindex := index_windowWord (i := i) (by rw [h]; decide)
      rw [h] at hindex
      exact .inl hindex.symm
    · have hindex := index_windowWord (i := i) (by simp [h])
      have hc : c < 64 := (defaultBuild_laidOut i c).1 h
      rw [h, WindowWord.index] at hindex
      omega
  · rintro (h | ⟨hlo, hhi⟩)
    · obtain rfl : i = 5 := Fin.ext h
      exact .inl rfl
    · exact .inr ⟨_, windowWord_kbuf (c := ⟨i.val - 128, by omega⟩) (by simp only; omega)⟩

section
variable {W : WindowWord} (w : Word) (s : State)

/-- A store to a word of the key clears the valid bit (R44). -/
theorem WindowWord.store_KV_of_holdsKey (h : W.holdsKey) : (W.store w s).KV = false := by
  have hKV : (statusClearKV s.STATUS).getLsbD 1 = false := (statusClearKV_bit s.STATUS 1).trans (Bool.and_false _)
  obtain rfl | ⟨c, rfl⟩ := h <;> exact hKV

/-- No other store touches it. -/
theorem WindowWord.store_KV_of_not_holdsKey (h : ¬ W.holdsKey) : (W.store w s).KV = s.KV := by
  cases W with
  | klen => exact absurd (.inl rfl) h
  | kbuf c => exact absurd (.inr ⟨c, rfl⟩) h
  | _ => rfl

end

/-- A host write of data is the store of the word the map shows. -/
theorem eq_store_of_transact_write {i : Fin 1024} (hi : i.val ≠ 0) {w : Word} {s t : State}
    (h : transact (.write i w) s = .next t) : t = (windowWord i).store w s :=
  Host.Outcome.next.inj (h.symm.trans (transact_write_of_map rfl (fun e => hi (windowWord_eq_cmd.1 e)) w s))

/-- Settles O20: one lemma for each way a transaction or a command can meet the valid bit. -/
theorem keyValidBitLifecycle : Obligations.KeyValidBitLifecycle := by
  refine ⟨fun s t h => ?reset, fun s t h => ⟨fun hL => ?builds, fun hL => ?tooLong⟩,
    fun i s t hi h => exec_keeps_square hi h, fun s hI hKV => exec_pfbuild_of_valid hI hKV,
    fun w s t hw h => presentCommand_keeps_KV hw h, fun i w s t hi h => ?key, fun i w s t hi h => ?data,
    fun i s t h => ?read⟩
  case reset => cases h; exact (by decide : State.reset.KV = false)
  case builds =>
    cases (exec_pfbuild hL).symm.trans h
    exact (statusSetKV_bit s.STATUS 1).trans (Bool.or_true _)
  case tooLong =>
    cases (exec_pfbuild_tooLong hL).symm.trans h
    exact s.recorded_KV ..
  case key =>
    rw [eq_store_of_transact_write (by omega) h]
    exact WindowWord.store_KV_of_holdsKey w s (windowWord_holdsKey_iff.2 hi)
  case data =>
    rw [eq_store_of_transact_write (fun h0 => hi (.inl h0)) h]
    exact WindowWord.store_KV_of_not_holdsKey w s fun hk => hi (.inr (windowWord_holdsKey_iff.1 hk))
  case read => cases h; rfl

end Sys2Proof.Machine
end

section
/-! PROOFS. The transposition commands TPIDX, TPOSE and TINV: the grid and the index mappings, and what each command
delivers (spec/43_transposition.md R120 to R127). -/

namespace Sys2Proof.Machine

/-! ### Run lengths and starts (R120, R122) -/

section
variable (L : Nat) {k : Nat} (hk : 1 ≤ k)
include hk

/-- The number of rows is the ceiling of L/k: the least number of rows of k cells that hold the text (R120). -/
theorem numRows_le_iff (n : Nat) : numRows L k ≤ n ↔ L ≤ n * k :=
  Nat.mul_comm k n ▸ ceilDiv_le_iff_le_mul (b := L) (c := n) hk

/-- Each full row has one cell in the column, and the last row one if it reaches the column (R120). -/
theorem runLen_eq_count {j : Nat} (hj : j < k) :
    runLen L k j = ((List.range L).filter fun i => decide (i % k = j)).length := by
  calc runLen L k j
      = L / k + if j % k < L % k then 1 else 0 := by
        rw [runLen_eq L hk, Nat.mod_eq_of_lt hj]
        split_ifs <;> rfl
    _ = L.count (· ≡ j [MOD k]) := (Nat.count_modEq_card L hk j).symm
    _ = ((List.range L).filter fun i => decide (i % k = j)).length := by
        simp only [Nat.count, List.countP_eq_length_filter, Nat.ModEq, Nat.mod_eq_of_lt hj]

/-- A column starts after the cells of the columns before it (R122). -/
theorem startOf_eq_sum (c : Nat) : startOf L k c = ((List.range c).map (runLen L k)).sum := by
  induction c with
  | zero => exact startOf_zero L hk
  | succ c ih => simp [startOf_succ L hk, ih, List.range_succ]

/-- With one column, or no more than one row, the cells are visited in the order of the text (R122). -/
theorem inverseIndex_eq_self (h : k = 1 ∨ L ≤ k) {i : Nat} (hi : i < L) : inverseIndex L k i = i := by
  unfold inverseIndex
  obtain rfl | hL := h
  · rw [Nat.mod_one, startOf_zero L hk, Nat.div_one, Nat.zero_add]
  · have hik : i < k := hi.trans_le hL
    rw [Nat.mod_eq_of_lt hik, Nat.div_eq_of_lt hik, startOf_eq L hk, Nat.add_zero]
    obtain hlt | rfl := hL.lt_or_eq
    · rw [Nat.div_eq_of_lt hlt, Nat.mod_eq_of_lt hlt, Nat.mul_zero, Nat.zero_add, Nat.min_eq_left hi.le]
    · rw [Nat.div_self hk, Nat.mod_self, Nat.mul_one, Nat.min_zero, Nat.add_zero]

end

/-- Settles O21: a ceiling is pinned by its least-bound property, and the count is one of a residue class. -/
theorem runLengthCountsColumnCells : Obligations.RunLengthCountsColumnCells := by
  refine fun L k hk => ⟨(numRows_le_iff L hk _).1 le_rfl, fun hL => ?least, fun j hj => ⟨runLen_eq_count L hk hj, rfl⟩⟩
  case least =>
    have hrows : ¬ numRows L k ≤ 0 := by rw [numRows_le_iff L hk]; omega
    exact not_le.1 fun hle => absurd ((numRows_le_iff L hk _).2 hle) (by omega)

/-- Settles O22: π has π⁻¹ on either side, and the start of a column is a sum of run lengths. -/
theorem transposeIndexVisitsColumnMajor : Obligations.TransposeIndexVisitsColumnMajor := by
  refine fun L k hk => ⟨fun o ho => ?visit, fun o ho o' ho' h => ?oneToOne, fun i hi => ?onto⟩
  case visit =>
    obtain ⟨c, r, hc, hr, ho', hπ⟩ := transposeIndex_spec L hk ho
    exact ⟨c, r, hc, hr, startOf_eq_sum L hk c ▸ ho'.symm, hπ, transposeIndex_lt L hk ho⟩
  case oneToOne =>
    rw [← inverseIndex_transposeIndex L hk ho, h, inverseIndex_transposeIndex L hk ho']
  case onto => exact ⟨_, inverseIndex_lt L hk hi, transposeIndex_inverseIndex L hk hi⟩

/-- Settles O23: where π⁻¹ is the identity, so is π. -/
theorem inverseIndexUndoesTransposeIndex : Obligations.InverseIndexUndoesTransposeIndex := by
  refine fun L k hk => ⟨fun c _ => startOf_eq_sum L hk c, fun i hi => ⟨?closed, inverseIndex_lt L hk hi,
    transposeIndex_inverseIndex L hk hi⟩, fun o ho => inverseIndex_transposeIndex L hk ho, fun h o ho => ?identity⟩
  case closed => rw [← startOf_eq_sum L hk, inverseIndex]
  case identity =>
    calc transposeIndex L k o
        = transposeIndex L k (inverseIndex L k o) := by rw [inverseIndex_eq_self L hk h ho]
      _ = o := transposeIndex_inverseIndex L hk ho

/-! ### The common checks (R123) -/

section
variable {s : State} {i : Instr} (hi : i = .tpose ∨ i = .tinv ∨ ∃ rd rs1 inv, i = .tpidx rd rs1 inv)
include hi

theorem exec_grid_tooLong (hL : 256 < s.tlen) : exec i s = .next (s.recorded 8 s.TLEN (encode i)) :=
  execAt_default ▸ execAt_gridFault (p := {}) (State.gridFault_length hL) hi

theorem exec_grid_noColumns (hL : s.tlen ≤ 256) (hk : s.tcols = 0) :
    exec i s = .next (s.recorded 9 0#32 (encode i)) :=
  execAt_default ▸ execAt_gridFault (p := {}) (State.gridFault_columns hL hk) hi

end

/-- The checks pass exactly on a text that fits and a grid with columns; this is the direction the commands need. -/
theorem State.gridFault_eq_none {s : State} (hL : s.tlen ≤ 256) (hk : 1 ≤ s.tcols) : s.gridFault = none :=
  (s.gridFault_eq_none_iff {}).2 ⟨hL, hk⟩

/-! ### TPIDX (R124) -/

section
variable {s : State} (hL : s.tlen ≤ 256) (hk : 1 ≤ s.tcols) (rd : Reg) {rs1 : Reg} (inv : IndexMap)
include hL hk

theorem exec_tpidx_of_lt {v : Nat} (hv : s.sint rs1 = v) (hlt : v < s.tlen) : exec (.tpidx rd rs1 inv) s =
    .next (s.setReg rd (BitVec.ofNat 32 (IndexMap.apply inv s.tlen s.tcols v))) :=
  execAt_default ▸ execAt_tpidx (State.gridFault_eq_none hL hk) rd inv hv hlt

theorem exec_tpidx_outOfRange (hv : s.sint rs1 < 0 ∨ s.sint rs1 ≥ s.tlen) :
    exec (.tpidx rd rs1 inv) s = .next (s.recorded 4 (s.reg rs1) (encode (.tpidx rd rs1 inv))) := by
  refine exec_of_raise (c := .operandRange) ?_
  simp only [verdict, tpidxVerdict, State.gridFault_eq_none hL hk, if_pos hv]

end

/-- Settles O24: one lemma per outcome; the o that π takes to v is π⁻¹(v). -/
theorem tpidxDeliversIndexMapping : Obligations.TpidxDeliversIndexMapping := by
  refine fun rd rs1 inv s => ⟨decode_encode (i := .tpidx rd rs1 inv) rfl, fun hL hk v hv hlt => ⟨?forward, ?inverse⟩,
    fun hL hk => exec_tpidx_outOfRange hL hk rd inv, exec_grid_tooLong ?grid, exec_grid_noColumns ?grid⟩
  case forward => exact exec_tpidx_of_lt hL hk rd .forward hv hlt
  case inverse =>
    exact ⟨_, inverseIndex_lt _ hk hlt, transposeIndex_inverseIndex _ hk hlt,
      exec_tpidx_of_lt hL hk rd .inverse hv hlt⟩
  case grid => exact .inr (.inr ⟨rd, rs1, inv, rfl⟩)

/-! ### TPOSE and TINV (R125 to R127) -/

/-- What TPOSE and TINV come to: each cell o of OBUF below the length gets TBUF[f(o)], with f = π for TPOSE and
f = π⁻¹ for TINV. -/
def State.gathered (s : State) (f : Nat → Nat) : State :=
  { s with OBUF := Memory.fill s.OBUF s.tlen fun o => Memory.read s.TBUF (f o) }

section
variable {s : State}

theorem exec_tpose (hL : s.tlen ≤ 256) (hk : 1 ≤ s.tcols) :
    exec .tpose s = .next (s.gathered (transposeIndex s.tlen s.tcols)) :=
  execAt_default ▸ execAt_tpose (State.gridFault_eq_none hL hk)

theorem exec_tinv (hL : s.tlen ≤ 256) (hk : 1 ≤ s.tcols) :
    exec .tinv s = .next (s.gathered (inverseIndex s.tlen s.tcols)) :=
  execAt_default ▸ execAt_tinv (State.gridFault_eq_none hL hk)

variable (hwf : Memory.wf Config.tcap s.OBUF = true) (f : Nat → Nat)
include hwf

theorem State.read_gathered_of_lt {a : Nat} (ha : a < s.tlen) :
    Memory.read (s.gathered f).OBUF a = Memory.read s.TBUF (f a) :=
  (Memory.read_fill _ _ _ _ (Memory.wf_sorted hwf)).trans (if_pos ha)

theorem State.read_gathered_of_le {a : Nat} (ha : s.tlen ≤ a) :
    Memory.read (s.gathered f).OBUF a = Memory.read s.OBUF a :=
  (Memory.read_fill _ _ _ _ (Memory.wf_sorted hwf)).trans (if_neg ha.not_gt)

theorem State.wf_gathered (hL : s.tlen ≤ 256) : Memory.wf Config.tcap (s.gathered f).OBUF = true :=
  Memory.wf_fill _ _ _ hwf hL

/-- Gathering along f, copying, and gathering along a right inverse g of f restores the text. -/
theorem State.gathered_copy_gathered (hL : s.tlen ≤ 256) {g : Nat → Nat}
    (hg : ∀ a < s.tlen, g a < s.tlen ∧ f (g a) = a) {copy : Memory 8}
    (hcopy : ∀ a < s.tlen, Memory.read copy a = Memory.read (s.gathered f).OBUF a) {a : Nat} (ha : a < s.tlen) :
    Memory.read ({ s.gathered f with TBUF := copy }.gathered g).OBUF a = Memory.read s.TBUF a := by
  obtain ⟨hga, hfg⟩ := hg a ha
  calc Memory.read ({ s.gathered f with TBUF := copy }.gathered g).OBUF a
      = Memory.read copy (g a) :=
        State.read_gathered_of_lt (s := { s.gathered f with TBUF := copy }) (s.wf_gathered hwf f hL) g ha
    _ = Memory.read (s.gathered f).OBUF (g a) := hcopy _ hga
    _ = Memory.read s.TBUF (f (g a)) := State.read_gathered_of_lt hwf f hga
    _ = Memory.read s.TBUF a := by rw [hfg]

end

/-- Settles O25: TPOSE gathers along π. -/
theorem tposeGathersText : Obligations.TposeGathersText :=
  fun _ hwf => ⟨decode_encode (i := .tpose) rfl, fun hL hk => ⟨_, exec_tpose hL hk, rfl,
    fun _ => State.read_gathered_of_lt hwf _, fun _ => State.read_gathered_of_le hwf _⟩,
    exec_grid_tooLong (.inl rfl), exec_grid_noColumns (.inl rfl)⟩

/-- Settles O26: gathering along π⁻¹ scatters along π, as π⁻¹ takes π(o) back to o. -/
theorem tinvScattersText : Obligations.TinvScattersText := by
  refine fun s hwf => ⟨decode_encode (i := .tinv) rfl, fun hL hk => ⟨_, exec_tinv hL hk, rfl, fun o ho => ?scatter,
    fun _ => State.read_gathered_of_le hwf _⟩, exec_grid_tooLong (.inr (.inl rfl)),
    exec_grid_noColumns (.inr (.inl rfl))⟩
  case scatter =>
    exact (State.read_gathered_of_lt hwf _ (transposeIndex_lt _ hk ho)).trans
      (congrArg _ (inverseIndex_transposeIndex _ hk ho))

/-- Settles O27: π and π⁻¹ are right inverses of each other, and the copy changes neither length. -/
theorem transpositionRoundTrip : Obligations.TranspositionRoundTrip := by
  refine fun s copy hwf hL hk => List.forall_mem_cons.2 ⟨?poseFirst, List.forall_mem_singleton.2 ?invFirst⟩
  case poseFirst =>
    refine ⟨_, exec_tpose hL hk, fun hcopy => ⟨_, exec_tinv hL hk, fun a ha => ?_⟩⟩
    exact State.gathered_copy_gathered hwf _ hL
      (fun a ha => ⟨inverseIndex_lt _ hk ha, transposeIndex_inverseIndex _ hk ha⟩) hcopy ha
  case invFirst =>
    refine ⟨_, exec_tinv hL hk, fun hcopy => ⟨_, exec_tpose hL hk, fun a ha => ?_⟩⟩
    exact State.gathered_copy_gathered hwf _ hL
      (fun a ha => ⟨transposeIndex_lt _ hk ha, inverseIndex_transposeIndex _ hk ha⟩) hcopy ha

end Sys2Proof.Machine
end

section
/-! PROOFS. The system command CLRF, and a batch of commands written while a fault is recorded (spec/44_system.md R135,
R137). -/

namespace Sys2Proof.Machine

/-! ### CLRF (R135) -/

/-- The row of the opcode 0x01 fixes every bit of its word. -/
theorem eq_clrf_word_of_decode {w : Word} {i : Instr} (hop : w.extractLsb' 24 8 = 0x01#8) (hd : decode w = .ok i) :
    w = 0x01000000#32 := by
  obtain ⟨r, hr, h, -⟩ := decode_eq_ok_iff.1 hd
  have hclrf : (⟨.clrf, 0x01000000#32, 0xFFFFFFFF#32⟩ : Row) ∈ opcodeTable := by decide
  obtain rfl := row_eq_of_opcodeField_eq r hr _ hclrf ((opcodeField_of_match hr h).symm.trans hop)
  exact BitVec.and_allOnes.symm.trans h

theorem exec_clrf (s : State) : exec .clrf s = .next s.endFault := rfl

theorem statusClearF_of_clear {v : Word} (h : v.getLsbD 0 = false) : statusClearF v = v := by
  refine BitVec.eq_of_getLsbD_eq fun b _ => ?_
  rw [statusClearF_bit]
  by_cases hb : b = 0
  · rw [hb, h, Bool.false_and]
  · simp [hb]

/-- With no fault recorded, the fault registers hold 0 already, and CLRF "writes zeros over zeros" (R135). -/
theorem State.Inv.endFault_eq_self {s : State} (hI : s.Inv) (hF : s.F = false) : s.endFault = s := by
  have hcode : s.FCODE = 0#32 := hI.code.2 hF
  obtain ⟨hinfo, hcmd⟩ := hI.quiet hF
  have hstatus : statusClearF s.STATUS = s.STATUS := statusClearF_of_clear hF
  cases s
  simp_all only [State.endFault]

/-- Settles O28: the word of CLRF passes the gate and decodes, and in an invariant state without a fault `endFault` is
the identity. -/
theorem clrfClearsRecordedFault : Obligations.ClrfClearsRecordedFault := by
  have hd : decode 0x01000000#32 = .ok .clrf := decode_encode (i := .clrf) rfl
  refine ⟨hd, fun w hop hw i h => hw (eq_clrf_word_of_decode hop h), fun w s => presentCommand_gated, fun s => ?_⟩
  exact ⟨exec_clrf s, presentCommand_command (.inr rfl) hd,
    fun hI hF => (exec_clrf s).trans (congrArg _ (hI.endFault_eq_self hF))⟩

/-! ### A batch of commands behind a fault (R137, R143) -/

theorem idle_eq_self {s : State} (h : s.rdata = none) : idle s = s := by
  rw [idle, ← h]

/-- A step that meets the gate only takes the write off the host's list. -/
theorem step_gated {s : State} {w : Word} {ts : List Transaction} (hF : s.F = true) (hw : w ≠ 0x01000000#32)
    (hh : s.host = .write 0 w :: ts) (hr : s.rdata = none) : step s = .next { s with host := ts } :=
  calc step s = presentCommand w (idle { s with host := ts }) := step_cons hh
    _ = presentCommand w { s with host := ts } := by rw [idle_eq_self (s := { s with host := ts }) hr]
    _ = .next { s with host := ts } := presentCommand_gated hF hw

/-- Settles O34, by induction on the batch: each step meets the gate and leaves a shorter batch in the same state. -/
theorem faultGateHoldsForBatch : Obligations.FaultGateHoldsForBatch := by
  intro ws
  induction ws with
  | nil =>
    rintro s rest - - rfl -
    rfl
  | cons w ws ih =>
    intro s rest hF hws hh hr
    obtain ⟨hw, hws⟩ := List.forall_mem_cons.1 hws
    have hstep := step_gated hF hw hh hr
    exact (run_succ_of_step hstep ws.length).trans (ih { s with host := ws.map (.write 0) ++ rest } rest hF hws rfl hr)

end Sys2Proof.Machine
end

section
/-! PROOFS. The fault mechanism: which faults each command can raise, what a fault records, and what passes the gate
while one is recorded (spec/60_exceptions.md R140 to R144). -/

namespace Sys2Proof.Machine

/-! ### The faults of each command (R140, R144) -/

/-- The verdict is a commit, or it raises a fault with one of the codes. -/
inductive Verdict.RaisesOnly (codes : List Nat) : Verdict → Prop where
  | commit (t : State) : RaisesOnly codes (.commit t)
  | raise {c : Cause} (info : Word) (hc : c.code.toNat ∈ codes) : RaisesOnly codes (.raise c info)

theorem Verdict.RaisesOnly.code_mem {codes : List Nat} {c : Cause} {info : Word}
    (h : (Verdict.raise c info).RaisesOnly codes) : c.code.toNat ∈ codes := by
  cases h with
  | raise _ hc => exact hc

/-- A check chooses between two verdicts, so it raises what either of them raises. -/
theorem Verdict.RaisesOnly.ite {codes : List Nat} {P : Prop} [Decidable P] {u v : Verdict} (hu : u.RaisesOnly codes)
    (hv : v.RaisesOnly codes) : (if P then u else v).RaisesOnly codes := by
  split
  · exact hu
  · exact hv

/-- The checks of R123 raise no other fault. -/
theorem State.gridFault_cause {s : State} {p : Config.Params} {c : Cause} {info : Word}
    (h : s.gridFault p = some (c, info)) : c = .badLength ∨ c = .badColumns := by
  unfold State.gridFault at h
  split at h
  · cases h; exact .inl rfl
  · split at h
    · cases h; exact .inr rfl
    · cases h

section
variable {s : State} {p : Config.Params} {rd rd2 rs1 rs2 : Reg} {n : SizeField}

theorem modVerdict_raisesOnly : (modVerdict rd rs1 rs2 s).RaisesOnly [3] :=
  .ite (.raise _ (by decide)) (.commit _)

theorem gcdVerdict_raisesOnly : (gcdVerdict rd rs1 rs2 s).RaisesOnly [4] :=
  .ite (.raise _ (by decide)) (.ite (.raise _ (by decide)) (.commit _))

theorem modinvVerdict_raisesOnly : (modinvVerdict rd rs1 rs2 s).RaisesOnly [3, 5] := by
  refine .ite (.raise _ (by decide)) ?_
  split
  · exact .commit _
  · exact .raise _ (by decide)

/-- Only the exact form can overflow (R94). -/
theorem mdetVerdict_raisesOnly (r : ResultForm) :
    (mdetVerdict rd n r s).RaisesOnly (possibleFaults (.mdet rd n r)) := by
  cases r with
  | exact => exact .ite (.raise _ (.head _)) (.ite (.commit _) (.raise _ (.tail _ (.head _))))
  | reduced => exact .ite (.raise _ (.head _)) (.commit _)

/-- Only the exact form can overflow (R95). -/
theorem madjVerdict_raisesOnly (r : ResultForm) : (madjVerdict n r s).RaisesOnly (possibleFaults (.madj n r)) := by
  cases r with
  | exact => exact .ite (.raise _ (.head _)) (.ite (.commit _) (.raise _ (.tail _ (.head _))))
  | reduced => exact .ite (.raise _ (.head _)) (.commit _)

theorem minvVerdict_raisesOnly : (minvVerdict n s).RaisesOnly [2, 6] := by
  refine .ite (.raise _ (by decide)) ?_
  split
  · exact .commit _
  · exact .raise _ (by decide)

theorem pfbuildVerdict_raisesOnly : (pfbuildVerdict s p).RaisesOnly [8] :=
  .ite (.raise _ (by decide)) (.commit _)

theorem pfposVerdict_raisesOnly (h : rd ≠ rd2) : (pfposVerdict rd rd2 rs1 s).RaisesOnly [10, 11] := by
  rw [pfposVerdict, if_neg h]
  refine .ite (.raise _ (by decide)) ?_
  split
  · exact .raise _ (by decide)
  · exact .commit _

theorem pfpairVerdict_raisesOnly (h : rd ≠ rd2) (dir : Direction) :
    (pfpairVerdict rd rd2 dir s).RaisesOnly [10, 11] := by
  rw [pfpairVerdict, if_neg h]
  refine .ite (.raise _ (by decide)) ?_
  split
  · exact .raise _ (by decide)
  · exact .raise _ (by decide)
  · exact .commit _

theorem tpidxVerdict_raisesOnly (inv : IndexMap) : (tpidxVerdict rd rs1 inv s p).RaisesOnly [8, 9, 4] := by
  unfold tpidxVerdict
  split
  next hg => obtain rfl | rfl := State.gridFault_cause hg <;> exact .raise _ (by decide)
  next => exact .ite (.raise _ (by decide)) (.commit _)

theorem tposeVerdict_raisesOnly : (tposeVerdict s p).RaisesOnly [8, 9] := by
  unfold tposeVerdict
  split
  next hg => obtain rfl | rfl := State.gridFault_cause hg <;> exact .raise _ (by decide)
  next => exact .commit _

theorem tinvVerdict_raisesOnly : (tinvVerdict s p).RaisesOnly [8, 9] := by
  unfold tinvVerdict
  split
  next hg => obtain rfl | rfl := State.gridFault_cause hg <;> exact .raise _ (by decide)
  next => exact .commit _

end

/-- Well-formedness rules out the one fault outside the table, that of a PFPOS or PFPAIR term with rd = rd2. -/
theorem verdict_raisesOnly {i : Instr} (hwf : i.wellFormed = true) (s : State) (p : Config.Params) :
    (verdict i s p).RaisesOnly (possibleFaults i) := by
  cases i with
  | clrf => exact .commit _
  | mod => exact modVerdict_raisesOnly
  | gcd => exact gcdVerdict_raisesOnly
  | modinv => exact modinvVerdict_raisesOnly
  | mdet _ _ r => exact mdetVerdict_raisesOnly r
  | madj _ r => exact madjVerdict_raisesOnly r
  | minv => exact minvVerdict_raisesOnly
  | pfbuild => exact pfbuildVerdict_raisesOnly
  | pfpos => exact pfposVerdict_raisesOnly (bne_iff_ne.1 hwf)
  | pfpair _ _ dir => exact pfpairVerdict_raisesOnly (bne_iff_ne.1 hwf) dir
  | tpidx _ _ inv => exact tpidxVerdict_raisesOnly inv
  | tpose => exact tposeVerdict_raisesOnly
  | tinv => exact tinvVerdict_raisesOnly

/-! ### A command that commits -/

/-- A commit of any command but CLRF leaves STATUS.F and FCODE alone. -/
theorem commit_keeps_fault {p : Config.Params} {i : Instr} {s t : State} (hi : i ≠ .clrf)
    (h : verdict i s p = .commit t) : t.F = s.F ∧ t.FCODE = s.FCODE := by
  obtain ⟨hclrf, -⟩ | ⟨x, rfl, -⟩ | ⟨n, q, -, -, -, rfl⟩ | ⟨-, -, rfl⟩ | ⟨-, -, f, rfl⟩ := commit_cases h
  · exact absurd hclrf hi
  · exact ⟨rfl, rfl⟩
  · exact ⟨rfl, rfl⟩
  · exact ⟨(statusSetKV_bit s.STATUS 0).trans (Bool.or_false _), rfl⟩
  · exact ⟨rfl, rfl⟩

/-- With no fault recorded before, a commit records none. -/
theorem commit_records_nothing {p : Config.Params} {i : Instr} {s t : State} (hF : s.F = false)
    (h : verdict i s p = .commit t) : t.F = false ∧ t.FCODE = if i = .clrf then 0#32 else s.FCODE := by
  by_cases hi : i = .clrf
  · subst hi
    cases h
    exact ⟨s.endFault_F, rfl⟩
  · obtain ⟨hF', hcode⟩ := commit_keeps_fault hi h
    exact ⟨hF'.trans hF, by rw [if_neg hi, hcode]⟩

/-- Settles O30: a command commits, recording nothing, or takes the fault it raises, which is one of its own. -/
theorem commandRaisesOnlyItsFaults : Obligations.CommandRaisesOnlyItsFaults := by
  intro i s t hwf hF h
  obtain hc | ⟨c, info, hv, rfl⟩ := exec_cases h
  · exact .inl (commit_records_nothing hF hc)
  · have honly := verdict_raisesOnly hwf s {}
    rw [hv] at honly
    exact .inr ⟨s.takeFault_F c info (encode i), honly.code_mem⟩

/-! ### What a fault leaves (R142) -/

/-- A fault taken under the word `w` is the four writes of R141, with a code of R140. -/
theorem State.takeFault_is_recorded (s : State) (c : Cause) (info w : Word) :
    ∃ (code : Nat) (info' : Word), 1 ≤ code ∧ code ≤ 11 ∧ s.takeFault c info w = s.recorded code info' w :=
  ⟨c.code.toNat, info, c.code_range.1, c.code_range.2, s.takeFault_eq_recorded c info w⟩

/-- Settles O29: of what a write to CMD can do, only the illegal word and the command that raises end with F = 1, and
the command's own word is the word presented. -/
theorem faultIsPrecise : Obligations.FaultIsPrecise := by
  intro w s t hF h hFt
  obtain ⟨hF', -, -⟩ | ⟨-, -, rfl⟩ | ⟨-, i, hd, hx⟩ := presentCommand_cases h
  · exact absurd (hF.symm.trans hF') Bool.false_ne_true
  · exact s.takeFault_is_recorded ..
  · obtain hc | ⟨c, info, -, rfl⟩ := exec_cases hx
    · exact absurd ((commit_records_nothing hF hc).1.symm.trans hFt) Bool.false_ne_true
    · rw [(encodeOfDecodeIsIdentity w i hd).1]
      exact s.takeFault_is_recorded ..

/-! ### The gate (R143) -/

/-- Settles O32: a command meets the gate; a data write is the store of the word the map shows, which never touches F
and drops KV exactly at the words of the key. -/
theorem faultGateDiscardsCommands : Obligations.FaultGateDiscardsCommands := by
  refine fun s hF => ⟨fun _ => presentCommand_gated hF, fun _ => rfl, fun i w hi => ?_⟩
  have hstore : hostStore i w s = (windowWord i).store w s := hostStore_of_map rfl w s
  refine ⟨transact_write_data hi w s, ?fault, ?valid⟩
  case fault => rw [hstore, WindowWord.store_F, hF]
  case valid =>
    rw [hstore]
    split
    next hk => exact WindowWord.store_KV_of_holdsKey w s (windowWord_holdsKey_iff.2 hk)
    next hk => exact WindowWord.store_KV_of_not_holdsKey w s (mt windowWord_holdsKey_iff.1 hk)

end Sys2Proof.Machine
end

section
/-! PROOFS. Every command on the unit right after reset (spec/70_reset_and_hazards.md R166). -/

namespace Sys2Proof.Machine

/-! ### What the commands read after reset, and zeros written over zeros -/

theorem State.reset_reg (r : Reg) : State.reset.reg r = 0#32 := by
  simp [State.reg, State.reset]

theorem State.reset_sint (r : Reg) : State.reset.sint r = 0 := by
  rw [State.sint, State.reset_reg, BitVec.toInt_zero]

theorem State.reset_operand (n : Nat) : State.reset.operand n = 0 := rfl

theorem State.reset_setReg_zero (r : Reg) : State.reset.setReg r (to32 0) = State.reset :=
  have hzero : to32 0 = State.reset.reg r := (State.reset_reg r).symm
  hzero ▸ State.setReg_reg_self _ r

/-- Zeros leave no trace in an empty memory: it lists no cell that holds 0. -/
theorem Memory.fill_nil_zero {w : Nat} (n : Nat) : Memory.fill ([] : Memory w) n (fun _ => 0#w) = [] := by
  induction n with
  | zero => rfl
  | succ n ih => rwa [Memory.fill, Memory.write, if_pos rfl]

theorem State.reset_setResult_zero {n : Nat} {q : IntMatrix} (hq : ∀ i j : Fin n, q i j = 0) :
    State.reset.setResult n q = State.reset := by
  have hMR : Memory.fill State.reset.MR (n * n) (fun _ => to32 0) = [] := Memory.fill_nil_zero (n * n)
  rw [State.setResult_congr (q' := fun _ _ => 0) hq, State.setResult, hMR]
  rfl

/-! ### The matrix commands on the zero matrix (spec/41_matrix.md) -/

section
variable {n : SizeField} (hn : 2 ≤ n.val)
include hn

theorem State.reset_det_operand : (State.reset.operand n.val).det = 0 := by
  have : Nontrivial (Fin n.val) := Fin.nontrivial_iff_two_le.2 hn
  rw [State.reset_operand, Matrix.det_zero]

theorem State.reset_adjugate_operand : (State.reset.operand n.val).adjugate = 0 := by
  have : Nontrivial (Fin n.val) := Fin.nontrivial_iff_two_le.2 hn
  rw [State.reset_operand, Matrix.adjugate_zero]

theorem State.reset_adj_matrix (i j : Fin n.val) : adj n.val (State.reset.matrix n.val) i j = 0 := by
  rw [State.adj_matrix _ hn, State.reset_adjugate_operand hn, Matrix.zero_apply]

/-- 0 has a pattern, and is its own residue. -/
theorem exec_mdet_reset (rd : Reg) (r : ResultForm) : exec (.mdet rd n r) State.reset = .next State.reset := by
  have hdet := State.reset_det_operand hn
  cases r with
  | exact => rw [exec_mdet_exact_of_fits rd _ hn (by omega), hdet, State.reset_setReg_zero]
  | reduced => rw [exec_mdet_reduced rd _ hn, hdet, Int.zero_emod, State.reset_setReg_zero]

/-- The adjugate of the zero matrix is the zero matrix, in either form. -/
theorem exec_madj_reset (r : ResultForm) : exec (.madj n r) State.reset = .next State.reset := by
  have hadj := State.reset_adj_matrix hn
  cases r with
  | exact =>
    have hfits (i j) : -2 ^ 31 ≤ (State.reset.operand n.val).adjugate i j ∧
        (State.reset.operand n.val).adjugate i j ≤ 2 ^ 31 - 1 := by
      simp [State.reset_adjugate_operand hn]
    rw [exec_madj_exact_of_fits _ hn hfits, State.reset_setResult_zero hadj]
  | reduced =>
    rw [exec_madj_reduced _ hn, State.reset_setResult_zero fun i j => by rw [hadj, Int.zero_emod]]

/-- 0 is no unit mod 26. -/
theorem exec_minv_reset :
    exec (.minv n) State.reset = .next (State.reset.recorded 6 0#32 (encode (.minv n))) := by
  have hdet := State.reset_det_operand hn
  rw [exec_minv_of_not_coprime _ hn (by rw [hdet]; decide), hdet]
  rfl

end

/-! ### The other commands that deliver something -/

theorem exec_gcd_reset (rd rs1 rs2 : Reg) : exec (.gcd rd rs1 rs2) State.reset = .next State.reset := by
  have hsint := State.reset_sint
  rw [exec_gcd_of_nonneg rd rs1 rs2 _ (hsint rs1).ge (hsint rs2).ge, hsint, hsint, Int.gcd_zero_left, Int.natAbs_zero,
    Int.ofNat_zero, State.reset_setReg_zero]

/-- With no key, the square is the alphabet in order (spec/42_playfair.md R107). -/
theorem exec_pfbuild_reset : ∃ t, exec .pfbuild State.reset = .next t ∧ t.STATUS = 2#32 ∧ t.squareList = alphabet := by
  obtain ⟨-, hbuild, -⟩ := pfbuildBuildsKeySquare State.reset rfl
  obtain ⟨t, hexec, ht, hsq, -⟩ := hbuild (by decide)
  have hkey : State.reset.letters = [] := rfl
  refine ⟨t, hexec, by rw [ht]; rfl, hsq.trans ?_⟩
  rw [hkey]
  decide

/-! ### The obligation -/

/-- Settles O43: every register and matrix cell reads as 0, KV is 0, and the text and the grid are empty. -/
theorem commandsStraightAfterReset : Obligations.CommandsStraightAfterReset := by
  have hm (r : Reg) : State.reset.sint r < 1 := by rw [State.reset_sint]; decide
  have hKV : State.reset.KV = false := by decide
  have hgrid {i : Instr} := exec_grid_noColumns (s := State.reset) (i := i) (hL := by decide) (hk := rfl)
  refine ⟨fun rd rs1 rs2 => ?mod, fun rd rs1 rs2 => ?modinv, exec_gcd_reset, fun rd _ r hn => exec_mdet_reset hn rd r,
    fun _ r hn => exec_madj_reset hn r, fun _ => exec_minv_reset, exec_pfbuild_reset,
    fun _ _ rs1 hne => exec_pfpos_of_invalid hne rs1 hKV, fun _ _ dir hne => exec_pfpair_of_invalid hne dir hKV,
    fun rd rs1 inv => hgrid (.inr (.inr ⟨rd, rs1, inv, rfl⟩)), hgrid (.inl rfl), hgrid (.inr (.inl rfl)), ?clrf⟩
  case mod => exact State.reset_reg rs2 ▸ exec_mod_of_lt_one rd rs1 rs2 _ (hm rs2)
  case modinv => exact State.reset_reg rs2 ▸ exec_modinv_of_lt_one rd rs1 rs2 _ (hm rs2)
  case clrf => rw [exec_clrf, (State.reset_inv {}).endFault_eq_self (by decide)]

end Sys2Proof.Machine
end
